-- ==== Sys2Proof/Word.lean ====
section
/-! DEFINITION. Word.lean: the values of the core's words. W (WORD_BITS) is an open parameter of the spec (00 R6), so
a cell or a register is an integer that FITS W bits (log entry 3), and wrap_W is the one narrowing the spec has
(00 R10, R11). -/

namespace Sys2Proof

/-- 00 R11 `wrap_W(v)`: the unique integer r with -2^(W-1) <= r < 2^(W-1) and r = v (mod 2^W). -/
def wrap (W : Nat) (v : Int) : Int := Int.bmod v (2 ^ W)

/-- 00 R8, R10: v is the value of some W-bit two's-complement cell. -/
abbrev FitsCell (W : Nat) (v : Int) : Prop :=
  -((2 ^ (W - 1) : Nat) : Int) ≤ v ∧ v < ((2 ^ (W - 1) : Nat) : Int)

/-- 10 R26: v is the value of some (W+1)-bit two's-complement fault_info. -/
abbrev FitsInfo (W : Nat) (v : Int) : Prop :=
  -((2 ^ W : Nat) : Int) ≤ v ∧ v < ((2 ^ W : Nat) : Int)

/-- 10 R21, R23: n is the value of some W-bit unsigned register (pc, sp). -/
abbrev FitsIndex (W : Nat) (n : Nat) : Prop := n < 2 ^ W

end Sys2Proof
end

