-- ==== Sys2Proof/Config.lean ====
section
/-! DEFINITION. Config.lean: what an implementation fixes (the spec's open parameters WORD_BITS and MEM_CELLS, 00 R6
and R7) and the one value the spec leaves open. -/

namespace Sys2Proof

/-- The implementation parameters (00 R6, R7), plain data that a machine carries and nothing changes (log entry 1). -/
structure Config where
  /-- WORD_BITS, written W (00 R6). -/
  wordBits : Nat
  /-- MEM_CELLS, written N (00 R7). -/
  memCells : Nat
deriving DecidableEq, Repr

/-- The constraints 00 R6 and R7 put on the parameters: W >= 32 and 1 <= N <= 2^(W-1). -/
abbrev Config.Valid (c : Config) : Prop :=
  32 ≤ c.wordBits ∧ 1 ≤ c.memCells ∧ c.memCells ≤ 2 ^ (c.wordBits - 1)

/-- DESIGN CHOICE (log entry 2): the parameters of `State.reset`. W = 32 is the width of the spec's opcode table and
test vectors (00 R6); N = 65536 is the model's choice. Statements hold for every configuration, not for this one. -/
def Config.standard : Config := { wordBits := 32, memCells := 65536 }

/-- DESIGN CHOICE (log entry 10): the free value number n. It stands for what a W-bit cell holds after JSR pushes a
return address that no signed W-bit cell can hold (43 R88 with p + 2 = 2^(W-1)); the spec states no value there. -/
opaque Config.freeCell : Nat → Int

end Sys2Proof
end

