-- ==== Sys2Proof/Syntax.lean ====
section
/-! DEFINITION. Syntax.lean: the instructions, one constructor per row of spec/opcode_table.json, in the table's
order (30 R51). An operand is the integer value of the operand cell (30 R49). -/

namespace Sys2Proof

/-- The 13 instructions of the closed opcode table (00 R2, 30 R51). -/
inductive Instr where
  /-- 0: halt (43 R86). -/
  | brk
  /-- 1: load A with an immediate (41 R74). -/
  | lda (op : Int)
  /-- 2: add an immediate to A (42 R82). -/
  | adc (op : Int)
  /-- 3: store A at an absolute cell address (41 R77). -/
  | sta (op : Int)
  /-- 4: load X with an immediate (41 R75). -/
  | ldx (op : Int)
  /-- 5: increment X (42 R83). -/
  | inx
  /-- 6: compare Y with an immediate (42 R85). -/
  | cmy (op : Int)
  /-- 7: branch if not equal, by a signed offset from the branch's own address (43 R87). -/
  | bne (op : Int)
  /-- 8: store A at the address held in X (41 R78). -/
  | staX
  /-- 9: decrement Y (42 R84). -/
  | dey
  /-- 10: load Y with an immediate (41 R76). -/
  | ldy (op : Int)
  /-- 11: call subroutine (43 R88). -/
  | jsr (op : Int)
  /-- 12: return from subroutine (43 R89). -/
  | rts
deriving DecidableEq, Repr

end Sys2Proof
end

