-- ==== Sys2Proof/WellFormed.lean ====
section
/-! DEFINITION. WellFormed.lean: which terms of Instr a machine with W-bit cells can hold. The operand is a whole
W-bit signed cell and every such value is a legal operand (30 R49, R52), so the only check is that it fits. -/

namespace Sys2Proof

/-- Every operand is the value of some W-bit cell (30 R49); an instruction without an operand cell is well formed. -/
def Instr.wellFormed (W : Nat) : Instr → Bool
  | .brk => true
  | .lda op => decide (FitsCell W op)
  | .adc op => decide (FitsCell W op)
  | .sta op => decide (FitsCell W op)
  | .ldx op => decide (FitsCell W op)
  | .inx => true
  | .cmy op => decide (FitsCell W op)
  | .bne op => decide (FitsCell W op)
  | .staX => true
  | .dey => true
  | .ldy op => decide (FitsCell W op)
  | .jsr op => decide (FitsCell W op)
  | .rts => true

end Sys2Proof
end

