-- ==== Sys2Proof/Decode.lean ====
section
/-! DEFINITION. Decode.lean: the opcode table (30 R51), the decoder, total on any list of cells (30 R50, R57), the
encoder written from the same table (30 R47, R48), and the same two on the bits of the instruction as
spec/opcode_table.json numbers them. -/

namespace Sys2Proof

/-- Why cells do not decode. -/
inductive DecodeError where
  /-- There is no opcode cell to read. -/
  | noCell
  /-- The opcode cell's value v is not one of 0 to 12 (30 R52, 40 R64). -/
  | opcodeNotFound (v : Int)
  /-- A two-cell opcode with no operand cell after it (40 R72). -/
  | operandMissing (v : Int)
deriving DecidableEq, Repr

/-- The two formats of 30 R47: the opcode alone, or the opcode and one operand cell. -/
inductive Format where
  | o (i : Instr)
  | oi (mk : Int → Instr)

/-- How many cells a format takes (30 R47, R48). -/
def Format.length : Format → Nat
  | .o _ => 1
  | .oi _ => 2

/-- One row of the opcode map (30 R51). -/
structure OpcodeRow where
  opcode : Int
  mnemonic : String
  format : Format

/-- The opcode map (30 R51): every legal opcode value with its mnemonic and format. -/
def opcodeTable : List OpcodeRow :=
  [ ⟨0, "BRK", .o .brk⟩
  , ⟨1, "LDA", .oi .lda⟩
  , ⟨2, "ADC", .oi .adc⟩
  , ⟨3, "STA", .oi .sta⟩
  , ⟨4, "LDX", .oi .ldx⟩
  , ⟨5, "INX", .o .inx⟩
  , ⟨6, "CMY", .oi .cmy⟩
  , ⟨7, "BNE", .oi .bne⟩
  , ⟨8, "STA_X", .o .staX⟩
  , ⟨9, "DEY", .o .dey⟩
  , ⟨10, "LDY", .oi .ldy⟩
  , ⟨11, "JSR", .oi .jsr⟩
  , ⟨12, "RTS", .o .rts⟩ ]

/-- 30 R57: the row whose opcode equals the whole cell, if there is one; no truncation (30 R50). -/
def lookupOpcode (v : Int) : Option Format :=
  (opcodeTable.find? fun r => r.opcode == v).map fun r => r.format

/-- Decode the instruction at the head of a list of cells, with the cells after it. Position alone determines meaning
(30 R54). -/
def decode : List Int → Except DecodeError (Instr × List Int)
  | [] => .error .noCell
  | v :: rest =>
    match lookupOpcode v with
    | none => .error (.opcodeNotFound v)
    | some (.o i) => .ok (i, rest)
    | some (.oi mk) =>
      match rest with
      | [] => .error (.operandMissing v)
      | op :: rest' => .ok (mk op, rest')

/-- The opcode value of an instruction (30 R51). -/
def Instr.opcode : Instr → Int
  | .brk => 0
  | .lda _ => 1
  | .adc _ => 2
  | .sta _ => 3
  | .ldx _ => 4
  | .inx => 5
  | .cmy _ => 6
  | .bne _ => 7
  | .staX => 8
  | .dey => 9
  | .ldy _ => 10
  | .jsr _ => 11
  | .rts => 12

/-- The operand cell of an instruction of format OI; none for format O (30 R48). -/
def Instr.operand : Instr → Option Int
  | .brk => none
  | .lda op => some op
  | .adc op => some op
  | .sta op => some op
  | .ldx op => some op
  | .inx => none
  | .cmy op => some op
  | .bne op => some op
  | .staX => none
  | .dey => none
  | .ldy op => some op
  | .jsr op => some op
  | .rts => none

/-- The cells of an instruction: the opcode cell and, for format OI, the operand cell (30 R47). -/
def encode (i : Instr) : List Int := i.opcode :: i.operand.toList

/-- The cell whose W-bit pattern is the low W bits of n, read as two's complement (00 R10). -/
def cellOfBits (W n : Nat) : Int := wrap W n

/-- The W-bit pattern of a cell, as a number (00 R10). -/
def bitsOfCell (W : Nat) (v : Int) : Nat := (v % ((2 ^ W : Nat) : Int)).toNat

/-- The two cells that hold the low nbits bits of w, bit 0 the least significant bit of the first cell; bits above
nbits are 0. -/
def cellsOfBits (W nbits w : Nat) : List Int :=
  [cellOfBits W (w % 2 ^ nbits), cellOfBits W (w % 2 ^ nbits / 2 ^ W)]

/-- What the decoder reads from an instruction whose bits are w, on a machine with W-bit cells. -/
def decodeBits (W nbits w : Nat) : Option Instr :=
  match decode (cellsOfBits W nbits w) with
  | .ok (i, _) => some i
  | .error _ => none

/-- The bits of an instruction on a machine with W-bit cells, the opcode cell in bits W-1..0 and the operand cell, if
any, above it. -/
def encodeBits (W : Nat) (i : Instr) : Nat :=
  bitsOfCell W i.opcode + 2 ^ W * bitsOfCell W (i.operand.getD 0)

/-- How many bits an instruction has on a machine with W-bit cells. -/
def Instr.bitLength (W : Nat) (i : Instr) : Nat := W * (encode i).length

/-- What the decoder reads from a word numbered as spec/opcode_table.json numbers it; the table's opcode cells have
W = 32 bits (30 R57). -/
def decodeTableWord (nbits w : Nat) : Option Instr := decodeBits 32 nbits w

end Sys2Proof
end

