-- ==== Sys2Proof/Machine/State.lean ====
section
/-! DEFINITION. Machine/State.lean: the architectural state (10 section 1), the fatal errors and their codes (60 R91),
the outcomes' reason types, and the state after reset (10 R29). -/

namespace Sys2Proof.Machine

/-- 10 R25: the control FSM's states. -/
inductive CtrlState where
  /-- 0: after reset or LOAD, before RUN. -/
  | idle
  /-- 1: loop check and opcode fetch. -/
  | fetch
  /-- 2: opcode decoder consulted. -/
  | decode
  /-- 3: operand cell fetched. -/
  | operand
  /-- 4: handler performed, writes committed. -/
  | execute
  /-- 5: BRK executed; terminal. -/
  | halted
  /-- 6: pc >= N at the loop check; terminal. -/
  | outOfBounds
  /-- 7: a fatal error stopped the run; terminal. -/
  | faulted
deriving DecidableEq, Repr

/-- 60 R91: the legal fault codes. Values 5 to 7 never occur (10 R26, I16). -/
inductive FaultCode where
  /-- 0: no fault. -/
  | none
  /-- 1. -/
  | opcodeNotFound
  /-- 2. -/
  | memoryAccessOutOfRange
  /-- 3. -/
  | stackOverflow
  /-- 4. -/
  | negativePc
deriving DecidableEq, Repr

/-- 60 R91: a fatal error a step can raise, with the value fault_info records. -/
inductive FatalError where
  /-- The opcode cell's value (60 R92). -/
  | opcodeNotFound (v : Int)
  /-- The out-of-range address (60 R93). -/
  | memoryAccessOutOfRange (a : Int)
  /-- The sp value, 0 (60 R94). -/
  | stackOverflow (sp : Int)
  /-- The negative target (60 R95). -/
  | negativePc (t : Int)
deriving DecidableEq, Repr

/-- Reasons for a step to stop outside the machine's own states. There is none: every fatal error of the spec has an
entry the spec describes (60 R98), which the model takes as a next state (log entry 8). -/
inductive Fault where
deriving DecidableEq, Repr

/-- Reasons for no meaning. -/
inductive Refusal where
  /-- Raised by `exec` alone, for an instruction that has no meaning yet; no arm raises it. Safe: nothing is claimed
  of such an instruction. -/
  | notModelled (mnemonic : String)
  /-- Raised by `hostLoad` alone, for a program value that no W-bit cell holds: "outside the model" (70 R108, D27,
  I17). Safe: nothing is claimed of such a LOAD. -/
  | loadValueTooWide
deriving DecidableEq, Repr

/-- 10 R14, 20 R32: the cells that do not hold what an unlisted cell reads as, as (cell index, value) pairs with
indexes strictly rising (log entry 4). -/
abbrev Memory := List (Nat × Int)

/-- The architectural state: the spec's tuple (10 section 1), with the parameters W and N (log entry 1) and the
counter of free values (log entries 10, 11). -/
structure State where
  /-- W and N (00 R6, R7); the model's own field. -/
  cfg : Config
  /-- M (10 R14). -/
  mem : Memory
  /-- A (10 R15). -/
  a : Int
  /-- X (10 R16). -/
  x : Int
  /-- Y (10 R17). -/
  y : Int
  /-- flags (10 R18). -/
  flags : Bool
  /-- pc (10 R21). -/
  pc : Nat
  /-- sp (10 R23). -/
  sp : Nat
  /-- halted (10 R24). -/
  halted : Bool
  /-- ctrl_state (10 R25). -/
  ctrl : CtrlState
  /-- fault_code (10 R26). -/
  faultCode : FaultCode
  /-- fault_info (10 R26). -/
  faultInfo : Int
  /-- How many free values have been drawn; the model's own field. -/
  freeCount : Nat
deriving DecidableEq, Repr

/-- 10 R29: the reset values for the parameters c. -/
def State.resetOf (c : Config) : State :=
  { cfg := c, mem := [], a := 0, x := 0, y := 0, flags := false, pc := 0, sp := c.memCells - 1, halted := false,
    ctrl := .idle, faultCode := .none, faultInfo := 0, freeCount := 0 }

/-- The machine right after reset (70 R106), for the parameters of log entry 2. -/
def State.reset : State := State.resetOf Config.standard

/-- What a step or a meaning answers. -/
abbrev Result := Host.Outcome State Fault Refusal

end Sys2Proof.Machine
end

