-- ==== Sys2Proof/Machine/Ops.lean ====
section
/-! DEFINITION. Machine/Ops.lean: the operations every meaning is written over: the cell memory (20 R32 to R34), the
register writes, the memory port (00 R12), the ALU (42 R79 to R81), the stack primitives (40 R66), fault entry (60
R98) and the commit (40 R73). There is no return from a fault (60 R99), so no operation stands for one. -/

namespace Sys2Proof.Machine

/-- What a cell that memory does not list reads as: reset zeroes every cell (10 R14, R29). -/
abbrev Memory.unlisted : Int := 0

/-- The one form a memory has: indexes strictly rising, no entry equal to what an unlisted cell reads as. -/
abbrev Memory.wf (m : Memory) : Prop :=
  m.Pairwise (fun e f => e.1 < f.1) ∧ ∀ e ∈ m, e.2 ≠ Memory.unlisted

/-- Read one whole cell (20 R33). -/
def Memory.read : Memory → Nat → Int
  | [], _ => Memory.unlisted
  | (j, v) :: m, k => if k = j then v else Memory.read m k

/-- Put the entry of cell k before the rest, unless v is what an unlisted cell reads as. -/
def Memory.entry (k : Nat) (v : Int) (m : Memory) : Memory :=
  if v = Memory.unlisted then m else (k, v) :: m

/-- Write one whole cell (20 R33), keeping the one form. -/
def Memory.write : Memory → Nat → Int → Memory
  | [], k, v => Memory.entry k v []
  | (j, w) :: m, k, v =>
    if k < j then Memory.entry k v ((j, w) :: m)
    else if k = j then Memory.entry k v m
    else (j, w) :: Memory.write m k v

/-- Write consecutive cells from index k on (70 R108's loop). -/
def Memory.writeAll (m : Memory) (k : Nat) : List Int → Memory
  | [] => m
  | v :: vs => Memory.writeAll (m.write k v) (k + 1) vs

def State.setMem (s : State) (m : Memory) : State := { s with mem := m }
def State.setA (s : State) (v : Int) : State := { s with a := v }
def State.setX (s : State) (v : Int) : State := { s with x := v }
def State.setY (s : State) (v : Int) : State := { s with y := v }
def State.setFlags (s : State) (b : Bool) : State := { s with flags := b }
def State.setPc (s : State) (p : Nat) : State := { s with pc := p }
def State.setSp (s : State) (p : Nat) : State := { s with sp := p }
def State.setHalted (s : State) (b : Bool) : State := { s with halted := b }
def State.setCtrl (s : State) (c : CtrlState) : State := { s with ctrl := c }

/-- 00 R12 `MemRead(addr, 1)`, with the bounds check of 20 R34. -/
def State.memRead (s : State) (addr : Int) : Except FatalError Int :=
  if 0 ≤ addr ∧ addr < s.cfg.memCells then .ok (s.mem.read addr.toNat)
  else .error (.memoryAccessOutOfRange addr)

/-- 00 R12 `MemWrite(addr, 1, v)`, with the bounds check of 20 R34. -/
def State.memWrite (s : State) (addr v : Int) : Except FatalError State :=
  if 0 ≤ addr ∧ addr < s.cfg.memCells then .ok (s.setMem (s.mem.write addr.toNat v))
  else .error (.memoryAccessOutOfRange addr)

/-- 42 R79: ALU ADD on W-bit inputs. -/
def aluAdd (W : Nat) (u v : Int) : Int := wrap W (u + v)

/-- 42 R80: ALU SUB on W-bit inputs. -/
def aluSub (W : Nat) (u v : Int) : Int := wrap W (u - v)

/-- 42 R81: ALU EQ: true exactly when all bits are equal, that is when the integers are. -/
def aluEq (u v : Int) : Bool := decide (u = v)

/-- 40 R66 `Push(v)`: refuse at sp = 0, else write M[sp] and then decrement sp. Where sp is out of range, which no
step reaches, the memory port's own check raises (log entry 15). -/
def State.push (s : State) (v : Int) : Except FatalError State :=
  if s.sp = 0 then .error (.stackOverflow 0)
  else do
    let t ← s.memWrite s.sp v
    .ok (t.setSp (s.sp - 1))

/-- 40 R66 `Pop()`: read M[sp + 1] and increment sp; the empty stack is an out-of-range read. -/
def State.pop (s : State) : Except FatalError (State × Int) := do
  let v ← s.memRead ((s.sp : Int) + 1)
  .ok (s.setSp (s.sp + 1), v)

/-- 43 R88: the return address p + 2 as a cell. Where no signed W-bit cell holds it, the spec states no value: the
cell is the next free value, and the counter moves on (DESIGN CHOICE, log entry 10). -/
def State.returnCell (s : State) : State × Int :=
  if FitsCell s.cfg.wordBits ((s.pc : Int) + 2) then (s, (s.pc : Int) + 2)
  else ({ s with freeCount := s.freeCount + 1 }, wrap s.cfg.wordBits (Config.freeCell s.freeCount))

/-- 60 R91: the code of a fatal error. -/
def FatalError.code : FatalError → FaultCode
  | .opcodeNotFound _ => .opcodeNotFound
  | .memoryAccessOutOfRange _ => .memoryAccessOutOfRange
  | .stackOverflow _ => .stackOverflow
  | .negativePc _ => .negativePc

/-- 60 R91: the value fault_info records. -/
def FatalError.info : FatalError → Int
  | .opcodeNotFound v => v
  | .memoryAccessOutOfRange a => a
  | .stackOverflow sp => sp
  | .negativePc t => t

/-- 60 R98: fault entry. Only the fault status and ctrl_state are written; pc keeps the faulting address. -/
def State.enterFault (s : State) (e : FatalError) : State :=
  { s with ctrl := .faulted, faultCode := e.code, faultInfo := e.info }

/-- 40 R71, R73: the end of EXECUTE. Either every staged write commits and the FSM returns to FETCH (40 R62), or the
fault is entered from the state before the step. -/
def State.conclude (s : State) : Except FatalError State → Result
  | .ok t => .next (t.setCtrl .fetch)
  | .error e => .next (s.enterFault e)

end Sys2Proof.Machine
end

