-- ==== Sys2Proof/Machine/Flags.lean ====
section
/-! DEFINITION. Machine/Flags.lean: the one condition bit (10 R18, R31): how CMY computes it and how the branch
resolver reads it. No other instruction writes or reads it. -/

namespace Sys2Proof.Machine

/-- 42 R85: CMY's result, true exactly when the operand equals Y. -/
def State.compareFlag (s : State) (op : Int) : Bool := aluEq op s.y

/-- 40 R67: the branch resolver, `taken = (flags = false)`. -/
def State.branchTaken (s : State) : Bool := !s.flags

end Sys2Proof.Machine
end

