-- ==== Sys2Proof/Machine/Operands.lean ====
section
/-! DEFINITION. Machine/Operands.lean: the operand forms of 30 R49, and the next-pc values of the program-counter
multiplexer (40 R65), each an exact integer computation with no wrap. -/

namespace Sys2Proof.Machine

/-- 30 R49, immediate value (LDA, ADC, LDX, CMY, LDY): the operand cell is the data itself. -/
def immediate (op : Int) : Int := op

/-- 30 R49, absolute cell address (STA): the operand cell is the cell index written. -/
def absoluteAddress (op : Int) : Int := op

/-- 30 R49, implied address (STA_X): X is the cell index written. -/
def State.impliedXAddress (s : State) : Int := s.x

/-- 30 R49, signed relative offset (BNE): added to p, the branch's own address. -/
def State.relativeTarget (s : State) (op : Int) : Int := (s.pc : Int) + op

/-- 30 R49 and 43 R88, call target (JSR): max(op - 1, 0). -/
def callTarget (op : Int) : Nat := (max (op - 1) 0).toNat

/-- 40 R65 SEQ1: p + 1. -/
def State.seq1 (s : State) : Nat := s.pc + 1

/-- 40 R65 SEQ2: p + 2. -/
def State.seq2 (s : State) : Nat := s.pc + 2

/-- 40 R65 and 60 R95: a computed target as a pc; a negative one raises NEGATIVE_PC. -/
def pcOfTarget (t : Int) : Except FatalError Nat :=
  if t < 0 then .error (.negativePc t) else .ok t.toNat

/-- 40 R65 BRANCH: p + op if the resolver says taken, else p + 2. -/
def State.branchNext (s : State) (op : Int) : Except FatalError Nat :=
  if s.branchTaken then pcOfTarget (s.relativeTarget op) else .ok s.seq2

end Sys2Proof.Machine
end

