-- ==== Sys2Proof/Machine/Arithmetic.lean ====
section
/-! DEFINITION. Machine/Arithmetic.lean: ADC, INX, DEY and CMY (42). -/

namespace Sys2Proof.Machine

/-- ADC (42 R82): no carry in and no carry out. -/
def execAdc (op : Int) (s : State) : Result :=
  s.conclude (.ok ((s.setA (aluAdd s.cfg.wordBits s.a (immediate op))).setPc s.seq2))

/-- INX (42 R83). -/
def execInx (s : State) : Result :=
  s.conclude (.ok ((s.setX (aluAdd s.cfg.wordBits s.x 1)).setPc s.seq1))

/-- DEY (42 R84). -/
def execDey (s : State) : Result :=
  s.conclude (.ok ((s.setY (aluSub s.cfg.wordBits s.y 1)).setPc s.seq1))

/-- CMY (42 R85). -/
def execCmy (op : Int) (s : State) : Result :=
  s.conclude (.ok ((s.setFlags (s.compareFlag (immediate op))).setPc s.seq2))

end Sys2Proof.Machine
end

