-- ==== Sys2Proof/Machine/Control.lean ====
section
/-! DEFINITION. Machine/Control.lean: BRK, BNE, JSR and RTS (43). -/

namespace Sys2Proof.Machine

/-- BRK (43 R86). -/
def execBrk (s : State) : Result :=
  s.conclude (.ok ((s.setHalted true).setPc s.seq1))

/-- BNE (43 R87). -/
def execBne (op : Int) (s : State) : Result :=
  s.conclude do
    let p ← s.branchNext op
    .ok (s.setPc p)

/-- JSR (43 R88): the return address is p + 2 and the target is max(op - 1, 0). -/
def execJsr (op : Int) (s : State) : Result :=
  s.conclude do
    let t ← s.returnCell.1.push s.returnCell.2
    .ok (t.setPc (callTarget op))

/-- RTS (43 R89): the empty-stack check comes before the negative-target check (60 R97). -/
def execRts (s : State) : Result :=
  s.conclude do
    let r ← s.pop
    let p ← pcOfTarget r.2
    .ok (r.1.setPc p)

end Sys2Proof.Machine
end

