-- ==== Sys2Proof/Machine/DataTransfer.lean ====
section
/-! DEFINITION. Machine/DataTransfer.lean: LDA, LDX, LDY, STA and STA_X (41). -/

namespace Sys2Proof.Machine

/-- LDA (41 R74). -/
def execLda (op : Int) (s : State) : Result :=
  s.conclude (.ok ((s.setA (immediate op)).setPc s.seq2))

/-- LDX (41 R75). -/
def execLdx (op : Int) (s : State) : Result :=
  s.conclude (.ok ((s.setX (immediate op)).setPc s.seq2))

/-- LDY (41 R76). -/
def execLdy (op : Int) (s : State) : Result :=
  s.conclude (.ok ((s.setY (immediate op)).setPc s.seq2))

/-- STA (41 R77). -/
def execSta (op : Int) (s : State) : Result :=
  s.conclude do
    let t ← s.memWrite (absoluteAddress op) s.a
    .ok (t.setPc s.seq2)

/-- STA_X (41 R78). -/
def execStaX (s : State) : Result :=
  s.conclude do
    let t ← s.memWrite s.impliedXAddress s.a
    .ok (t.setPc s.seq1)

end Sys2Proof.Machine
end

