-- ==== Sys2Proof/Machine/Dispatch.lean ====
section
/-! DEFINITION. Machine/Dispatch.lean: one arm per instruction. -/

namespace Sys2Proof.Machine

def exec (i : Instr) (s : State) : Host.Outcome State Fault Refusal :=
  match i with
  | .brk => Sys2Proof.Machine.execBrk s
  | .lda op => Sys2Proof.Machine.execLda op s
  | .adc op => Sys2Proof.Machine.execAdc op s
  | .sta op => Sys2Proof.Machine.execSta op s
  | .ldx op => Sys2Proof.Machine.execLdx op s
  | .inx => Sys2Proof.Machine.execInx s
  | .cmy op => Sys2Proof.Machine.execCmy op s
  | .bne op => Sys2Proof.Machine.execBne op s
  | .staX => Sys2Proof.Machine.execStaX s
  | .dey => Sys2Proof.Machine.execDey s
  | .ldy op => Sys2Proof.Machine.execLdy op s
  | .jsr op => Sys2Proof.Machine.execJsr op s
  | .rts => Sys2Proof.Machine.execRts s

end Sys2Proof.Machine
end

