-- ==== Sys2Proof/Machine/Fetch.lean ====
section
/-! DEFINITION. Machine/Fetch.lean: the run loop's check (40 R58) and the opcode and operand fetch of a step (40 R59,
R64, R72). -/

namespace Sys2Proof.Machine

/-- 70 R111: the running states. -/
def CtrlState.running : CtrlState → Bool
  | .idle => false
  | .fetch => true
  | .decode => true
  | .operand => true
  | .execute => true
  | .halted => false
  | .outOfBounds => false
  | .faulted => false

/-- 40 R61, 70 R119: the terminal states. -/
def CtrlState.terminal : CtrlState → Bool
  | .idle => false
  | .fetch => false
  | .decode => false
  | .operand => false
  | .execute => false
  | .halted => true
  | .outOfBounds => true
  | .faulted => true

/-- 40 R58: the loop check, halted first (D14). `none` where a step is to run. -/
def State.loopCheck (s : State) : Option CtrlState :=
  if s.halted then some .halted
  else if s.cfg.memCells ≤ s.pc then some .outOfBounds
  else none

/-- 40 R59: the opcode fetch, M[p]. The loop check guarantees p < N. -/
def State.opcodeCell (s : State) : Int := s.mem.read s.pc

/-- 40 R59, R64, R72: fetch the opcode, decode it, and fetch the operand of a two-cell instruction, in this order. -/
def State.fetchInstr (s : State) : Except FatalError Instr :=
  match lookupOpcode s.opcodeCell with
  | none => .error (.opcodeNotFound s.opcodeCell)
  | some (.o i) => .ok i
  | some (.oi instr) => do
    let op ← s.memRead ((s.pc : Int) + 1)
    .ok (instr op)

/-- The cells of memory from pc on that an instruction can occupy: M[p], and M[p+1] where it exists (30 R47). -/
def State.fetchCells (s : State) : List Int :=
  s.opcodeCell :: (if s.pc + 1 < s.cfg.memCells then [s.mem.read (s.pc + 1)] else [])

end Sys2Proof.Machine
end

