-- ==== Sys2Proof/Machine/Step.lean ====
section
/-! DEFINITION. Machine/Step.lean: one iteration of the run loop (40 R58, R59), which is one whole instruction (00 R9). -/

namespace Sys2Proof.Machine

/-- One step. While the core runs: the loop check, then fetch, decode and execute, or fault entry (40 R58, R59, 60
R98). In IDLE the core waits for the host's RUN, and a terminal state stays as it is (40 R62, 60 R99, R105; log
entries 5 and 6). -/
def step (s : State) : Host.Outcome State Fault Refusal :=
  if s.ctrl.running then
    match s.loopCheck with
    | some c => .next (s.setCtrl c)
    | none =>
      match s.fetchInstr with
      | .error e => .next (s.enterFault e)
      | .ok i => exec i s
  else .next s

/-- s with the instruction whose bits are w placed where step fetches next, and running (log entry 7): LOAD and RUN
of that instruction. Where two cells do not fit from pc on, it is placed at cell 0 (log entry 20). -/
def State.withFetchWord (s : State) (nbits w : Nat) : State :=
  let p := if s.pc + 1 < s.cfg.memCells then s.pc else 0
  let cells := (cellsOfBits s.cfg.wordBits nbits w).take s.cfg.memCells
  { s with mem := s.mem.writeAll p cells, pc := p, halted := false, ctrl := .fetch }

end Sys2Proof.Machine
end

