-- ==== Sys2Proof/Machine/Datapath.lean ====
section
/-! DEFINITION. Machine/Datapath.lean: the opcode decoder's control signals (40 R63) and the datapath they steer (40
R65 to R70): a second account of EXECUTE, beside the instruction rules of files 41 to 43. -/

namespace Sys2Proof.Machine

/-- What an ALU input or a memory port takes. -/
inductive Source where
  | op
  | a
  | x
  | y
  | one
deriving DecidableEq, Repr

/-- alu_op of 40 R63. PASS routes its input unchanged and is no ALU operation. -/
inductive AluOp where
  | pass (u : Source)
  | add (u v : Source)
  | sub (u v : Source)
  | eq (u v : Source)
deriving DecidableEq, Repr

/-- rf_dest of 40 R63. -/
inductive RegDest where
  | a
  | x
  | y
  | flags
deriving DecidableEq, Repr

/-- mem_op of 40 R63. PUSH pushes p + 2. -/
inductive MemOp where
  | write (addr data : Source)
  | push
  | pop
deriving DecidableEq, Repr

/-- pc_sel of 40 R65. -/
inductive PcSel where
  | seq1
  | seq2
  | branch
  | call
  | ret
deriving DecidableEq, Repr

/-- One row of the decoder's outputs (40 R63). A valid opcode has a row; `valid = 0` is no row. -/
structure Control where
  length : Nat
  aluOp : Option AluOp
  rfDest : Option RegDest
  memOp : Option MemOp
  pcSel : PcSel
  setHalt : Bool
deriving DecidableEq, Repr

/-- 40 R63: the decoder's table, by the whole value of IR. -/
def controlTable : List (Int × Control) :=
  [ (0, ⟨1, none, none, none, .seq1, true⟩)
  , (1, ⟨2, some (.pass .op), some .a, none, .seq2, false⟩)
  , (2, ⟨2, some (.add .a .op), some .a, none, .seq2, false⟩)
  , (3, ⟨2, none, none, some (.write .op .a), .seq2, false⟩)
  , (4, ⟨2, some (.pass .op), some .x, none, .seq2, false⟩)
  , (5, ⟨1, some (.add .x .one), some .x, none, .seq1, false⟩)
  , (6, ⟨2, some (.eq .op .y), some .flags, none, .seq2, false⟩)
  , (7, ⟨2, none, none, none, .branch, false⟩)
  , (8, ⟨1, none, none, some (.write .x .a), .seq1, false⟩)
  , (9, ⟨1, some (.sub .y .one), some .y, none, .seq1, false⟩)
  , (10, ⟨2, some (.pass .op), some .y, none, .seq2, false⟩)
  , (11, ⟨2, none, none, some .push, .call, false⟩)
  , (12, ⟨1, none, none, some .pop, .ret, false⟩) ]

/-- 40 R63: the decoder. -/
def controlOf (ir : Int) : Option Control :=
  (controlTable.find? fun r => r.1 == ir).map fun r => r.2

/-- The register read ports and the constant 1 (40 R68). -/
def State.source (s : State) (op : Int) : Source → Int
  | .op => op
  | .a => s.a
  | .x => s.x
  | .y => s.y
  | .one => 1

/-- The ALU (40 R69). EQ's 1-bit result stands as 1 or 0 (00 R10). -/
def State.alu (s : State) (op : Int) : AluOp → Int
  | .pass u => s.source op u
  | .add u v => aluAdd s.cfg.wordBits (s.source op u) (s.source op v)
  | .sub u v => aluSub s.cfg.wordBits (s.source op u) (s.source op v)
  | .eq u v => if aluEq (s.source op u) (s.source op v) then 1 else 0

/-- The register-file write port (40 R68): at most one entry. -/
def State.writePort (s : State) (dest : Option RegDest) (v : Int) : State :=
  match dest with
  | none => s
  | some .a => s.setA v
  | some .x => s.setX v
  | some .y => s.setY v
  | some .flags => s.setFlags (v != 0)

/-- The data access of EXECUTE (40 R70), with the value POP returns and 0 where there is none. -/
def State.memoryPort (s : State) (op : Int) : Option MemOp → Except FatalError (State × Int)
  | none => .ok (s, 0)
  | some (.write addr data) => do
    let t ← s.memWrite (s.source op addr) (s.source op data)
    .ok (t, 0)
  | some .push => do
    let t ← s.returnCell.1.push s.returnCell.2
    .ok (t, 0)
  | some .pop => s.pop

/-- The program-counter multiplexer (40 R65). -/
def State.pcMux (s : State) (sel : PcSel) (op popped : Int) : Except FatalError Nat :=
  match sel with
  | .seq1 => .ok s.seq1
  | .seq2 => .ok s.seq2
  | .branch => s.branchNext op
  | .call => .ok (callTarget op)
  | .ret => pcOfTarget popped

/-- EXECUTE as the control signals steer it. Every read is of the state before the step (40 R68), and nothing commits
where a part raises (40 R71). -/
def State.datapath (s : State) (c : Control) (op : Int) : Except FatalError State := do
  let m ← s.memoryPort op c.memOp
  let p ← s.pcMux c.pcSel op m.2
  let v := match c.aluOp with
    | none => 0
    | some f => s.alu op f
  .ok (((m.1.writePort c.rfDest v).setPc p).setHalted (s.halted || c.setHalt))

end Sys2Proof.Machine
end

