-- ==== Sys2Proof/Machine/Fsm.lean ====
section
/-! DEFINITION. Machine/Fsm.lean: the control FSM, phase by phase (40 R62), with its two latches (10 R27). It is a
machine beside `step`: neither a program nor the host observes its phases (40 R71). -/

namespace Sys2Proof.Machine

/-- The architectural state with the FSM's latches (10 R27). The latches have no specified value at reset or between
instructions (log entry 9). -/
structure FsmState where
  arch : State
  /-- The opcode cell fetched in FETCH. -/
  ir : Int
  /-- The operand cell fetched in OPERAND. -/
  opr : Int
deriving DecidableEq, Repr

/-- The FSM in the same latches, with another architectural state. -/
def FsmState.withArch (f : FsmState) (s : State) : FsmState := { f with arch := s }

/-- FETCH (40 R62): the loop check, then IR <- M[pc]. -/
def FsmState.fetchPhase (f : FsmState) : FsmState :=
  match f.arch.loopCheck with
  | some c => f.withArch (f.arch.setCtrl c)
  | none => { f.withArch (f.arch.setCtrl .decode) with ir := f.arch.opcodeCell }

/-- DECODE (40 R62): the decoder is consulted on the whole of IR. -/
def FsmState.decodePhase (f : FsmState) : FsmState :=
  match controlOf f.ir with
  | none => f.withArch (f.arch.enterFault (.opcodeNotFound f.ir))
  | some c => f.withArch (f.arch.setCtrl (if c.length = 2 then .operand else .execute))

/-- OPERAND (40 R62, R72): OPR <- M[pc + 1]. -/
def FsmState.operandPhase (f : FsmState) : FsmState :=
  match f.arch.memRead ((f.arch.pc : Int) + 1) with
  | .error e => f.withArch (f.arch.enterFault e)
  | .ok v => { f.withArch (f.arch.setCtrl .execute) with opr := v }

/-- EXECUTE (40 R62, R73): commit and return to FETCH, or fault entry. IR was found valid in DECODE; where it is not,
which no run reaches, the decoder's fault is raised here. -/
def FsmState.executePhase (f : FsmState) : FsmState :=
  match controlOf f.ir with
  | none => f.withArch (f.arch.enterFault (.opcodeNotFound f.ir))
  | some c =>
    match f.arch.datapath c f.opr with
    | .error e => f.withArch (f.arch.enterFault e)
    | .ok t => f.withArch (t.setCtrl .fetch)

/-- One phase (40 R62). IDLE waits for RUN and a terminal state stays. -/
def FsmState.phase (f : FsmState) : FsmState :=
  match f.arch.ctrl with
  | .idle => f
  | .fetch => f.fetchPhase
  | .decode => f.decodePhase
  | .operand => f.operandPhase
  | .execute => f.executePhase
  | .halted => f
  | .outOfBounds => f
  | .faulted => f

/-- k phases. -/
def FsmState.phases : Nat → FsmState → FsmState
  | 0, f => f
  | k + 1, f => FsmState.phases k f.phase

/-- The latches hold what the phases before this one fetched, from a cell inside memory (40 R62). -/
def FsmState.Consistent (f : FsmState) : Prop :=
  match f.arch.ctrl with
  | .idle => True
  | .fetch => True
  | .decode => f.arch.loopCheck = none ∧ f.ir = f.arch.opcodeCell
  | .operand => f.arch.loopCheck = none ∧ f.ir = f.arch.opcodeCell ∧ ∃ c, controlOf f.ir = some c ∧ c.length = 2
  | .execute => f.arch.loopCheck = none ∧ f.ir = f.arch.opcodeCell ∧ ∃ c, controlOf f.ir = some c ∧
      (c.length = 2 → f.arch.pc + 1 < f.arch.cfg.memCells ∧ f.opr = f.arch.mem.read (f.arch.pc + 1))
  | .halted => True
  | .outOfBounds => True
  | .faulted => True

end Sys2Proof.Machine
end

