-- ==== Sys2Proof/Machine/HostInterface.lean ====
section
/-! DEFINITION. Machine/HostInterface.lean: what the host can do to the core, at the level of the transactions of 70
R106 to R111 (70 R112). They land between steps (log entry 18). -/

namespace Sys2Proof.Machine

/-- 70 R106: reset is construction, in any state. The counter of free values is no state of the spec's and moves on
(log entry 11). -/
def State.hostReset (s : State) : State := { State.resetOf s.cfg with freeCount := s.freeCount }

/-- LOAD's result (70 R108, R112). -/
inductive LoadResult where
  /-- 1. -/
  | ok
  /-- 2: the program is longer than memory (60 R96). -/
  | programExceedsMemory
  /-- LOAD while running is ignored and "its result is unspecified" (70 R111): no value is chosen (log entry 13). -/
  | unspecified
deriving DecidableEq, Repr

/-- 70 R112: the code on load_result. Code 0, busy, belongs to the open handshake HOST_PROTOCOL. -/
def LoadResult.code : LoadResult → Option Nat
  | .ok => some 1
  | .programExceedsMemory => some 2
  | .unspecified => none

/-- 70 R108: LOAD. A value that no W-bit cell holds is outside the model (D27, I17). -/
def State.hostLoad (prog : List Int) (s : State) : Host.Outcome (State × LoadResult) Fault Refusal :=
  if s.ctrl.running then .next (s, .unspecified)
  else if prog.all fun v => decide (FitsCell s.cfg.wordBits v) then
    if s.cfg.memCells < prog.length then .next (s, .programExceedsMemory)
    else .next (s.setMem (s.mem.writeAll 0 prog), .ok)
  else .refused .loadValueTooWide

/-- 70 R109: RUN starts the loop in IDLE and does nothing in every other state. -/
def State.hostRun (s : State) : State :=
  match s.ctrl with
  | .idle => s.setCtrl .fetch
  | .fetch => s
  | .decode => s
  | .operand => s
  | .execute => s
  | .halted => s
  | .outOfBounds => s
  | .faulted => s

/-- 10 R25: the encoding of ctrl_state, read on state_o. -/
def CtrlState.code : CtrlState → Nat
  | .idle => 0
  | .fetch => 1
  | .decode => 2
  | .operand => 3
  | .execute => 4
  | .halted => 5
  | .outOfBounds => 6
  | .faulted => 7

/-- 10 R26, 60 R91: the encoding of fault_code, read on fault_code_o. -/
def FaultCode.number : FaultCode → Nat
  | .none => 0
  | .opcodeNotFound => 1
  | .memoryAccessOutOfRange => 2
  | .stackOverflow => 3
  | .negativePc => 4

/-- A 1-bit field as a number (00 R10). -/
def bitValue (b : Bool) : Int := if b then 1 else 0

/-- What the host can ask to see (70 R110). -/
inductive Inspection where
  /-- A register-file entry by its index (10 R19): 0 A, 1 X, 2 Y, 3 flags, read as 0 or 1 (70 R112). -/
  | register (sel : Fin 4)
  | pc
  | sp
  | halted
  | ctrlState
  | faultCode
  | faultInfo
  /-- The memory cell with this index. -/
  | cell (addr : Int)
deriving DecidableEq, Repr

/-- What the host sees. -/
inductive Observed where
  | value (v : Int)
  /-- The spec gives no value (I13, I14): no claim can read one (log entry 13). -/
  | unspecified
deriving DecidableEq, Repr

/-- 10 R19: the register-file entry a select value reads. -/
def State.registerEntry (s : State) (sel : Fin 4) : Int :=
  match sel with
  | 0 => s.a
  | 1 => s.x
  | 2 => s.y
  | 3 => bitValue s.flags

/-- 70 R110: inspection, a function of the state alone, so without side effects. Values are specified only while the
core is not running, and for cells 0 to N-1. -/
def State.inspect (s : State) (q : Inspection) : Observed :=
  if s.ctrl.running then .unspecified
  else match q with
    | .register sel => .value (s.registerEntry sel)
    | .pc => .value s.pc
    | .sp => .value s.sp
    | .halted => .value (bitValue s.halted)
    | .ctrlState => .value s.ctrl.code
    | .faultCode => .value s.faultCode.number
    | .faultInfo => .value s.faultInfo
    | .cell addr =>
      if 0 ≤ addr ∧ addr < s.cfg.memCells then .value (s.mem.read addr.toNat) else .unspecified

end Sys2Proof.Machine
end

