-- ==== Sys2Proof/Safety.lean ====
section
/-! DEFINITION. Safety.lean: what claims are stated in: the invariant of a machine (10), a running core that stands at
an opcode (40 R59), and the states the host and the core can bring about (70). -/

namespace Sys2Proof.Machine

/-- Every cell the memory lists exists and holds a W-bit value (10 R14), in the one form. -/
abbrev Memory.Fits (c : Config) (m : Memory) : Prop :=
  m.wf ∧ ∀ e ∈ m, e.1 < c.memCells ∧ FitsCell c.wordBits e.2

/-- ctrl_state agrees with halted, pc and the fault status (10 R24 to R26, 40 R61, R62, 60 R98). -/
def State.Coherent (s : State) : Prop :=
  match s.ctrl with
  | .idle => s.halted = false ∧ s.pc = 0 ∧ s.faultCode = .none
  | .fetch => s.faultCode = .none
  | .decode => False
  | .operand => False
  | .execute => False
  | .halted => s.halted = true ∧ s.faultCode = .none
  | .outOfBounds => s.halted = false ∧ s.cfg.memCells ≤ s.pc ∧ s.faultCode = .none
  | .faulted => s.halted = false ∧ s.pc < s.cfg.memCells ∧ s.faultCode ≠ .none

/-- The invariant of a machine between steps: legal parameters (00 R6, R7), every register within its width (00 R8),
sp inside memory (10 R23), memory in its one form, no fault value without a fault, and a coherent ctrl_state. -/
structure State.Inv (s : State) : Prop where
  cfg_valid : s.cfg.Valid
  mem_fits : s.mem.Fits s.cfg
  a_fits : FitsCell s.cfg.wordBits s.a
  x_fits : FitsCell s.cfg.wordBits s.x
  y_fits : FitsCell s.cfg.wordBits s.y
  pc_fits : FitsIndex s.cfg.wordBits s.pc
  sp_in_memory : s.sp < s.cfg.memCells
  info_fits : FitsInfo s.cfg.wordBits s.faultInfo
  info_of_none : s.faultCode = .none → s.faultInfo = 0
  coherent : s.Coherent

/-- A running core passes its loop check (40 R58) with the opcode cell v at pc (40 R59). -/
abbrev State.At (s : State) (v : Int) : Prop :=
  s.ctrl.running = true ∧ s.halted = false ∧ s.pc < s.cfg.memCells ∧ s.mem.read s.pc = v

/-- What fault entry may leave of s (60 R98): the fault status and ctrl_state are written and nothing else. Claims are
stated with this record and not with the model's own `enterFault`. -/
abbrev State.faultedWith (s : State) (code : FaultCode) (info : Int) : State :=
  { s with ctrl := .faulted, faultCode := code, faultInfo := info }

/-- k steps, stopping at the first fault or refusal: the fuel a run is bounded with is the claim's, not the
hardware's (60 R104, 70 R119). -/
def steps : Nat → State → Result
  | 0, s => .next s
  | k + 1, s =>
    match step s with
    | .next t => steps k t
    | .fault r => .fault r
    | .refused r => .refused r

/-- The states that reset, LOAD, RUN and the core's steps bring about from construction with the parameters c (70
R106 to R109). -/
inductive Reachable (c : Config) : State → Prop where
  | construction : Reachable c (State.resetOf c)
  | reset (s : State) : Reachable c s → Reachable c s.hostReset
  | load (s t : State) (prog : List Int) (r : LoadResult) :
      Reachable c s → s.hostLoad prog = .next (t, r) → Reachable c t
  | run (s : State) : Reachable c s → Reachable c s.hostRun
  | step (s t : State) : Reachable c s → step s = .next t → Reachable c t

end Sys2Proof.Machine
end

