-- ==== Sys2Proof/Certificates/Slice0/Obligations.lean ====
section
/-! DEFINITION. Certificates/Slice0/Obligations.lean: the statements for the provers. They hold for every W and N the
state carries (00 R6, R7). Where a statement is about the next state, the record it names is the whole next state: a
field the record does not name is unchanged (10 R30). -/

open Sys2Proof Sys2Proof.Machine

/-! ## Encoding and decoding (30) -/

/-- Decode and encode agree: on a machine with W-bit cells, the bits of every well-formed instruction decode to it, and
so do its cells, whatever follows them. What the cells are is 30 sections 1 to 3. How the first clause numbers their
bits, the opcode cell's lowest and the operand cell's above them, is the model's choice (log entry 20): the spec numbers
no bits across cells. -/
def Obligations.EncodedInstructionsDecodeBack : Prop :=
  ∀ W, 32 ≤ W → ∀ i : Instr, i.wellFormed W = true →
    decodeBits W (i.bitLength W) (encodeBits W i) = some i ∧
    ∀ rest, decode (encode i ++ rest) = .ok (i, rest)

/-- The other direction: cells have one meaning. What decodes to an instruction is that instruction's cells. -/
def Obligations.DecodedCellsAreTheEncoding : Prop :=
  ∀ cells i rest, decode cells = .ok (i, rest) → cells = encode i ++ rest

/-- 30 R52: exactly the opcode values outside 0 to 12 are illegal, no operand value is, and decoding an illegal opcode
raises OPCODE_NOT_FOUND(v) before any operand fetch and before any state changes (40 R64). -/
def Obligations.OnlyOpcodesZeroToTwelveAreLegal : Prop :=
  (∀ v rest, decode (v :: rest) = .error (.opcodeNotFound v) ↔ v < 0 ∨ 12 < v) ∧
  (∀ v op rest, 0 ≤ v → v ≤ 12 → ∃ i rest', decode (v :: op :: rest) = .ok (i, rest')) ∧
  (∀ (s : State) v, (v < 0 ∨ 12 < v) → s.At v → step s = .next (s.faultedWith .opcodeNotFound v))

/-- Sanity: words whose cells are written out from the opcode map (30 R51); 257 and -1 are the values 30 R50 names as no
LDA. That the operand cell stands above the opcode cell in a word (log entry 20) and that a cell has 32 bits (log
entries 2 and 20) are the model's choice and not the spec's. -/
def Obligations.SampleWordsDecode : Prop :=
  decodeTableWord 64 0x0000006400000001 = some (.lda 100) ∧
  decodeTableWord 64 0xFFFFFFFD00000007 = some (.bne (-3)) ∧
  decodeTableWord 64 0x000000080000000B = some (.jsr 8) ∧
  decodeTableWord 32 0x00000005 = some .inx ∧
  decodeTableWord 32 0x00000008 = some .staX ∧
  decodeTableWord 64 0x0000000000000101 = none ∧
  decodeTableWord 32 0xFFFFFFFF = none

/-! ## The run loop (40 section 1) -/

/-- A step runs the decoded instruction: no words are skipped and nothing is added around exec (40 R59, R60). -/
def Obligations.StepRunsTheDecodedInstruction : Prop :=
  ∀ (s : State) i rest, s.ctrl.running = true → s.halted = false → s.pc < s.cfg.memCells →
    decode s.fetchCells = .ok (i, rest) → step s = exec i s

/-- 40 R58: RUN in IDLE starts the loop; each iteration tests halted, then pc >= N, then does one Step; a fault or a
terminal state stops it. -/
def Obligations.LoopTestsHaltedThenPcThenSteps : Prop :=
  (∀ s : State, s.ctrl = .idle → s.hostRun = { s with ctrl := .fetch }) ∧
  (∀ s : State, s.ctrl.running = true → s.halted = true → step s = .next { s with ctrl := .halted }) ∧
  (∀ s : State, s.ctrl.running = true → s.halted = false → s.cfg.memCells ≤ s.pc →
    step s = .next { s with ctrl := .outOfBounds }) ∧
  (∀ (s : State) v, s.At v →
    (∃ e : FatalError, s.fetchInstr = .error e ∧ step s = .next (s.faultedWith e.code e.info)) ∨
    (∃ i, s.fetchInstr = .ok i ∧ step s = exec i s)) ∧
  (∀ s : State, s.ctrl.terminal = true → step s = .next s)

/-- 40 R61: from a running state a step ends the run in HALTED exactly when halted is set, in OUT_OF_BOUNDS exactly
when it is not and pc >= N, and otherwise it runs an instruction that either commits or faults. -/
def Obligations.RunsEndInExactlyOneTerminalState : Prop :=
  ∀ s t : State, s.ctrl.running = true → step s = .next t →
    (t.ctrl = .halted ↔ s.halted = true) ∧
    (t.ctrl = .outOfBounds ↔ s.halted = false ∧ s.cfg.memCells ≤ s.pc) ∧
    (t.ctrl = .fetch ∨ t.ctrl = .faulted ↔ s.halted = false ∧ s.pc < s.cfg.memCells) ∧
    (t.ctrl = .faulted → t.faultCode ≠ .none)

/-- 40 R72: the operand of every two-cell opcode is read before its rule executes, taken branch or not, and p + 1 = N
raises MEMORY_ACCESS_OUT_OF_RANGE(p + 1) with nothing changed. -/
def Obligations.OperandCellIsAlwaysFetched : Prop :=
  ∀ (s : State) v, v ∈ [1, 2, 3, 4, 6, 7, 10, 11] → s.At v →
    (s.pc + 1 < s.cfg.memCells →
      ∃ i, decode [v, s.mem.read (s.pc + 1)] = .ok (i, []) ∧ step s = exec i s) ∧
    (s.cfg.memCells ≤ s.pc + 1 →
      s.pc = s.cfg.memCells - 1 ∧ step s = .next (s.faultedWith .memoryAccessOutOfRange ((s.pc : Int) + 1)))

/-- Every step answers a next state: no ordinary data stops the model. Derived: every fatal error has the entry of 60
R98, and IDLE and the terminal states stay (40 R62). -/
def Obligations.EveryStepAnswersANextState : Prop :=
  ∀ s : State, ∃ t, step s = .next t

/-- 40 R60: the next pc is the value the instruction's rule computes and the loop adds nothing; a faulting
instruction leaves pc at its own address. -/
def Obligations.NextPcIsTheInstructionsOwn : Prop :=
  ∀ (s t : State) v, s.At v → step s = .next t →
    (t.ctrl = .faulted → t.pc = s.pc) ∧
    (t.ctrl = .fetch →
      (v ∈ [0, 5, 8, 9] → t.pc = s.pc + 1) ∧
      (v ∈ [1, 2, 3, 4, 6, 10] → t.pc = s.pc + 2) ∧
      (v = 7 → (t.pc : Int) = if s.flags = false then (s.pc : Int) + s.mem.read (s.pc + 1) else (s.pc : Int) + 2) ∧
      (v = 11 → (t.pc : Int) = max (s.mem.read (s.pc + 1) - 1) 0) ∧
      (v = 12 → (t.pc : Int) = s.mem.read (s.sp + 1)))

/-- 40 R65: every committed next pc lies in 0 to 2^W - 1, so it fits the unsigned pc, and the sequential ones lie in 1
to N and 2 to N + 1. For states that meet the invariant. -/
def Obligations.CommittedPcFitsItsRegister : Prop :=
  ∀ (s t : State) v, s.Inv → s.At v → step s = .next t →
    t.pc < 2 ^ s.cfg.wordBits ∧
    (v ∈ [0, 5, 8, 9] → t.ctrl = .fetch → 1 ≤ t.pc ∧ t.pc ≤ s.cfg.memCells) ∧
    (v ∈ [1, 2, 3, 4, 6, 10] → t.ctrl = .fetch → 2 ≤ t.pc ∧ t.pc ≤ s.cfg.memCells + 1) ∧
    (v = 11 → t.ctrl = .fetch → t.pc + 2 ≤ 2 ^ (s.cfg.wordBits - 1))

/-! ## Data transfer (41) -/

/-- 41 R74, R75, R76: LDA, LDX and LDY. -/
def Obligations.LoadsPutTheOperandInTheirRegister : Prop :=
  (∀ (op : Int) (s : State), exec (.lda op) s = .next { s with a := op, pc := s.pc + 2, ctrl := .fetch }) ∧
  (∀ (op : Int) (s : State), exec (.ldx op) s = .next { s with x := op, pc := s.pc + 2, ctrl := .fetch }) ∧
  (∀ (op : Int) (s : State), exec (.ldy op) s = .next { s with y := op, pc := s.pc + 2, ctrl := .fetch }) ∧
  (∀ s : State, s.At 1 → s.pc + 1 < s.cfg.memCells →
    step s = .next { s with a := s.mem.read (s.pc + 1), pc := s.pc + 2, ctrl := .fetch }) ∧
  (∀ s : State, s.At 4 → s.pc + 1 < s.cfg.memCells →
    step s = .next { s with x := s.mem.read (s.pc + 1), pc := s.pc + 2, ctrl := .fetch }) ∧
  (∀ s : State, s.At 10 → s.pc + 1 < s.cfg.memCells →
    step s = .next { s with y := s.mem.read (s.pc + 1), pc := s.pc + 2, ctrl := .fetch }) ∧
  (∀ (s : State) v, v ∈ [1, 4, 10] → s.At v → s.pc + 1 = s.cfg.memCells →
    step s = .next (s.faultedWith .memoryAccessOutOfRange s.cfg.memCells))

/-- 41 R77: STA. The store reaches cell op and no other; out of range it faults with op. -/
def Obligations.StaStoresAtItsOperand : Prop :=
  (∀ (op : Int) (s : State), 0 ≤ op → op < s.cfg.memCells →
    exec (.sta op) s = .next { s with mem := s.mem.write op.toNat s.a, pc := s.pc + 2, ctrl := .fetch } ∧
    (s.mem.wf → (s.mem.write op.toNat s.a).read op.toNat = s.a) ∧
    ∀ k : Nat, (k : Int) ≠ absoluteAddress op → (s.mem.write op.toNat s.a).read k = s.mem.read k) ∧
  (∀ (op : Int) (s : State), op < 0 ∨ (s.cfg.memCells : Int) ≤ op →
    exec (.sta op) s = .next (s.faultedWith .memoryAccessOutOfRange op)) ∧
  (∀ s : State, s.At 3 → s.pc + 1 < s.cfg.memCells → step s = exec (.sta (s.mem.read (s.pc + 1))) s) ∧
  (∀ s : State, s.At 3 → s.pc + 1 = s.cfg.memCells →
    step s = .next (s.faultedWith .memoryAccessOutOfRange s.cfg.memCells))

/-- 41 R78: STA_X. The store reaches cell X and no other, X is not changed, no operand is fetched, and an X out of
range faults. -/
def Obligations.StaXStoresAtX : Prop :=
  (∀ s : State, 0 ≤ s.x → s.x < s.cfg.memCells →
    exec .staX s = .next { s with mem := s.mem.write s.x.toNat s.a, pc := s.pc + 1, ctrl := .fetch } ∧
    (s.mem.wf → (s.mem.write s.x.toNat s.a).read s.x.toNat = s.a) ∧
    ∀ k : Nat, (k : Int) ≠ s.impliedXAddress → (s.mem.write s.x.toNat s.a).read k = s.mem.read k) ∧
  (∀ s : State, s.x < 0 ∨ (s.cfg.memCells : Int) ≤ s.x →
    exec .staX s = .next (s.faultedWith .memoryAccessOutOfRange s.x)) ∧
  (∀ s : State, s.At 8 → step s = exec .staX s)

/-! ## The ALU and its instructions (42) -/

/-- 42 R79, R80: ADD and SUB return the one W-bit signed value congruent to a + b and a - b modulo 2^W, and the
rules' own examples. -/
def Obligations.AluAddAndSubWrapAround : Prop :=
  (∀ W u v, 32 ≤ W → FitsCell W u → FitsCell W v →
    (FitsCell W (aluAdd W u v) ∧ aluAdd W u v % ((2 ^ W : Nat) : Int) = (u + v) % ((2 ^ W : Nat) : Int)) ∧
    (∀ r, FitsCell W r → r % ((2 ^ W : Nat) : Int) = (u + v) % ((2 ^ W : Nat) : Int) → r = aluAdd W u v) ∧
    (FitsCell W (aluSub W u v) ∧ aluSub W u v % ((2 ^ W : Nat) : Int) = (u - v) % ((2 ^ W : Nat) : Int)) ∧
    (∀ r, FitsCell W r → r % ((2 ^ W : Nat) : Int) = (u - v) % ((2 ^ W : Nat) : Int) → r = aluSub W u v)) ∧
  aluAdd 32 2147483647 1 = -2147483648 ∧
  aluSub 32 (-2147483648) 1 = 2147483647

/-- 42 R81: EQ is true exactly when all W bits are equal, that is when the integers are. -/
def Obligations.AluEqComparesAllBits : Prop :=
  ∀ W u v, 32 ≤ W → FitsCell W u → FitsCell W v →
    (aluEq u v = true ↔ u = v) ∧ (aluEq u v = true ↔ bitsOfCell W u = bitsOfCell W v)

/-- 42 R82, R83, R84: ADC, INX and DEY. ADC adds no carry, and INX and DEY fetch no operand. -/
def Obligations.ArithmeticWrapsIntoItsRegister : Prop :=
  (∀ (op : Int) (s : State), exec (.adc op) s =
    .next { s with a := wrap s.cfg.wordBits (s.a + op), pc := s.pc + 2, ctrl := .fetch }) ∧
  (∀ s : State, exec .inx s = .next { s with x := wrap s.cfg.wordBits (s.x + 1), pc := s.pc + 1, ctrl := .fetch }) ∧
  (∀ s : State, exec .dey s = .next { s with y := wrap s.cfg.wordBits (s.y - 1), pc := s.pc + 1, ctrl := .fetch }) ∧
  (∀ s : State, s.At 2 → s.pc + 1 < s.cfg.memCells →
    step s = .next { s with a := wrap s.cfg.wordBits (s.a + s.mem.read (s.pc + 1)), pc := s.pc + 2, ctrl := .fetch }) ∧
  (∀ s : State, s.At 2 → s.pc + 1 = s.cfg.memCells →
    step s = .next (s.faultedWith .memoryAccessOutOfRange s.cfg.memCells)) ∧
  (∀ s : State, s.At 5 →
    step s = .next { s with x := wrap s.cfg.wordBits (s.x + 1), pc := s.pc + 1, ctrl := .fetch }) ∧
  (∀ s : State, s.At 9 →
    step s = .next { s with y := wrap s.cfg.wordBits (s.y - 1), pc := s.pc + 1, ctrl := .fetch })

/-- 42 R85: CMY writes flags, always, with whether the operand equals Y, and nothing else. -/
def Obligations.CmyWritesEqualityIntoFlags : Prop :=
  (∀ (op : Int) (s : State), exec (.cmy op) s = .next { s with flags := decide (op = s.y), pc := s.pc + 2, ctrl := .fetch }) ∧
  (∀ s : State, s.At 6 → s.pc + 1 < s.cfg.memCells →
    step s = .next { s with flags := decide (s.mem.read (s.pc + 1) = s.y), pc := s.pc + 2, ctrl := .fetch }) ∧
  (∀ s : State, s.At 6 → s.pc + 1 = s.cfg.memCells →
    step s = .next (s.faultedWith .memoryAccessOutOfRange s.cfg.memCells))

/-! ## Control transfer (43) -/

/-- 43 R86: BRK sets halted and leaves pc at p + 1; the loop check that follows stops in HALTED before any further
fetch, at p = N-1 too. -/
def Obligations.BrkHaltsBeforeAnyFurtherFetch : Prop :=
  (∀ s : State, exec .brk s = .next { s with halted := true, pc := s.pc + 1, ctrl := .fetch }) ∧
  (∀ s : State, s.At 0 →
    step s = .next { s with halted := true, pc := s.pc + 1, ctrl := .fetch } ∧
    step { s with halted := true, pc := s.pc + 1, ctrl := .fetch } =
      .next { s with halted := true, pc := s.pc + 1, ctrl := .halted })

/-- 43 R87: BNE, by its own address p, with no wrap; taken to a negative target it faults. -/
def Obligations.BneBranchesFromItsOwnAddress : Prop :=
  (∀ (op : Int) (s : State), s.flags = false → 0 ≤ (s.pc : Int) + op →
    exec (.bne op) s = .next { s with pc := ((s.pc : Int) + op).toNat, ctrl := .fetch }) ∧
  (∀ (op : Int) (s : State), s.flags = false → (s.pc : Int) + op < 0 →
    exec (.bne op) s = .next (s.faultedWith .negativePc ((s.pc : Int) + op))) ∧
  (∀ (op : Int) (s : State), s.flags = true → exec (.bne op) s = .next { s with pc := s.pc + 2, ctrl := .fetch }) ∧
  (∀ s : State, s.At 7 → s.pc + 1 < s.cfg.memCells → step s = exec (.bne (s.mem.read (s.pc + 1))) s) ∧
  (∀ s : State, s.At 7 → s.pc + 1 = s.cfg.memCells →
    step s = .next (s.faultedWith .memoryAccessOutOfRange s.cfg.memCells))

/-- 43 R88: JSR pushes p + 2 at the old sp, decrements sp and goes to max(op - 1, 0); sp = 0 faults with nothing
written, and the operand fetch comes first. sp < N is part of the invariant (10 R23). The return address is one a
cell holds; `JsrCompletesWhereNoCellHoldsTheReturnAddress` is about the others. -/
def Obligations.JsrPushesTheReturnAddress : Prop :=
  (∀ (op : Int) (s : State), 0 < s.sp → s.sp < s.cfg.memCells → FitsCell s.cfg.wordBits ((s.pc : Int) + 2) →
    exec (.jsr op) s = .next
      { s with mem := s.mem.write s.sp ((s.pc : Int) + 2), sp := s.sp - 1, pc := (max (op - 1) 0).toNat,
               ctrl := .fetch } ∧
    (s.mem.wf → (s.mem.write s.sp ((s.pc : Int) + 2)).read s.sp = (s.pc : Int) + 2) ∧
    ∀ k, k ≠ s.sp → (s.mem.write s.sp ((s.pc : Int) + 2)).read k = s.mem.read k) ∧
  (∀ (op : Int) (s : State), s.sp = 0 → exec (.jsr op) s = .next (s.faultedWith .stackOverflow 0)) ∧
  (∀ s : State, s.At 11 → s.pc + 1 < s.cfg.memCells → step s = exec (.jsr (s.mem.read (s.pc + 1))) s) ∧
  (∀ s : State, s.At 11 → s.pc + 1 = s.cfg.memCells →
    step s = .next (s.faultedWith .memoryAccessOutOfRange s.cfg.memCells))

/-- The model's choice (log entry 10), not the spec's: where no signed W-bit cell holds p + 2, JSR completes with some
W-bit value in the pushed cell, and everything else is as 43 R88 says. -/
def Obligations.JsrCompletesWhereNoCellHoldsTheReturnAddress : Prop :=
  ∀ (op : Int) (s : State), 1 ≤ s.cfg.wordBits → 0 < s.sp → s.sp < s.cfg.memCells →
    ¬FitsCell s.cfg.wordBits ((s.pc : Int) + 2) →
    ∃ v, FitsCell s.cfg.wordBits v ∧
      exec (.jsr op) s = .next
        { s with mem := s.mem.write s.sp v, sp := s.sp - 1, pc := (max (op - 1) 0).toNat, ctrl := .fetch,
                 freeCount := s.freeCount + 1 }

/-- 43 R89: RTS pops M[sp + 1] into pc with nothing added, increments sp and leaves memory alone; the empty stack
faults first, then a negative value. sp < N is part of the invariant (10 R23). -/
def Obligations.RtsPopsTheReturnAddress : Prop :=
  (∀ s : State, s.sp + 1 < s.cfg.memCells → 0 ≤ s.mem.read (s.sp + 1) →
    exec .rts s = .next { s with sp := s.sp + 1, pc := (s.mem.read (s.sp + 1)).toNat, ctrl := .fetch }) ∧
  (∀ s : State, s.sp + 1 = s.cfg.memCells →
    exec .rts s = .next (s.faultedWith .memoryAccessOutOfRange s.cfg.memCells)) ∧
  (∀ s : State, s.sp + 1 < s.cfg.memCells → s.mem.read (s.sp + 1) < 0 →
    exec .rts s = .next (s.faultedWith .negativePc (s.mem.read (s.sp + 1)))) ∧
  (∀ s : State, s.At 12 → step s = exec .rts s)

/-- 43 R90: the subroutine round trip. After a JSR at p that does not fault, cell sp holds p + 2 and sp is one lower; an
RTS that executes while sp is that and the cell still holds p + 2 resumes at p + 2 with sp as before the call. -/
def Obligations.SubroutineRoundTrip : Prop :=
  ∀ s t : State, s.At 11 → 1 ≤ s.sp → s.sp < s.cfg.memCells → s.mem.wf →
    FitsCell s.cfg.wordBits ((s.pc : Int) + 2) → step s = .next t → t.ctrl ≠ .faulted →
    (t.sp = s.sp - 1 ∧ t.mem.read s.sp = (s.pc : Int) + 2) ∧
    ∀ u : State, u.cfg = s.cfg → u.At 12 → u.sp = s.sp - 1 → u.mem.read s.sp = (s.pc : Int) + 2 →
      step u = .next { u with pc := s.pc + 2, sp := s.sp, ctrl := .fetch }

/-- A taken BNE 0 branches to itself: however many steps the core takes, it has not ended (70 R118, R119). -/
def Obligations.BranchToItselfNeverEnds : Prop :=
  ∀ s : State, s.At 7 → s.pc + 1 < s.cfg.memCells → s.mem.read (s.pc + 1) = 0 → s.flags = false →
    ∀ n, steps (n + 1) s = .next { s with ctrl := .fetch }

/-! ## Whole-machine rules: frames and faults (10 R30, 60) -/

/-- 10 R30: an instruction changes only the state its rule names. Each register has its writers and no others; the fault
fields change only on fault entry (60 R98); W and N never do. -/
def Obligations.RegistersChangeOnlyByTheirWriters : Prop :=
  ∀ (i : Instr) (s t : State), exec i s = .next t →
    (t.a ≠ s.a → ∃ op : Int, i = .lda op ∨ i = .adc op) ∧
    (t.x ≠ s.x → (∃ op : Int, i = .ldx op) ∨ i = .inx) ∧
    (t.y ≠ s.y → (∃ op : Int, i = .ldy op) ∨ i = .dey) ∧
    (t.flags ≠ s.flags → ∃ op : Int, i = .cmy op) ∧
    (t.sp ≠ s.sp → (∃ op : Int, i = .jsr op) ∨ i = .rts) ∧
    (t.halted ≠ s.halted → i = .brk) ∧
    (t.faultCode ≠ s.faultCode ∨ t.faultInfo ≠ s.faultInfo → t.ctrl = .faulted) ∧
    (t.freeCount ≠ s.freeCount → ∃ op : Int, i = .jsr op) ∧
    t.cfg = s.cfg

/-- The memory frame (10 R30, 20 R37): every cell outside the one an instruction stores to reads as before, and an
instruction that stores nothing changes no cell. STA stores at its operand, STA_X at X, JSR at sp. -/
def Obligations.StoresReachOnlyTheirAddress : Prop :=
  ∀ (i : Instr) (s t : State), exec i s = .next t → ∀ k : Nat,
    (match i with
      | .sta op => (k : Int) ≠ absoluteAddress op
      | .staX => (k : Int) ≠ s.impliedXAddress
      | .jsr _ => k ≠ s.sp
      | .brk => True
      | .lda _ => True
      | .adc _ => True
      | .ldx _ => True
      | .inx => True
      | .cmy _ => True
      | .bne _ => True
      | .dey => True
      | .ldy _ => True
      | .rts => True) →
    t.mem.read k = s.mem.read k

/-- 10 R18: CMY is the only writer of flags, and BNE the only reader: a step at any other opcode does the same whatever
flags holds. -/
def Obligations.FlagsAreCmysToWriteAndBnesToRead : Prop :=
  (∀ (s t : State), step s = .next t → t.flags ≠ s.flags → s.At 6) ∧
  (∀ (s t : State) (b : Bool), s.opcodeCell ≠ 7 → step s = .next t →
    ∃ t' : State, step { s with flags := b } = .next t' ∧ { t' with flags := t.flags } = t)

/-- 60 R98, 40 R71: a step that faults writes the fault status and ctrl_state and changes nothing else: no register,
flag, memory cell, sp, pc or halted. -/
def Obligations.FaultEntryWritesOnlyTheFaultStatus : Prop :=
  ∀ s t : State, s.ctrl.running = true → step s = .next t → t.ctrl = .faulted →
    ∃ e : FatalError, t = s.faultedWith e.code e.info

/-- 60 R92 to R95 and R97: when a step faults, with which code and with which value, for every state with sp inside
memory (10 R23). The conditions exclude each other, so at most one fault is raised, in R97's order. -/
def Obligations.FaultCausesAreExactlyThese : Prop :=
  ∀ (s t : State) (v info : Int), s.At v → s.sp < s.cfg.memCells → step s = .next t →
    (t.ctrl = .faulted ∧ t.faultCode = .opcodeNotFound ∧ t.faultInfo = info ↔ (v < 0 ∨ 12 < v) ∧ info = v) ∧
    (t.ctrl = .faulted ∧ t.faultCode = .memoryAccessOutOfRange ∧ t.faultInfo = info ↔
      (v ∈ [1, 2, 3, 4, 6, 7, 10, 11] ∧ s.pc + 1 = s.cfg.memCells ∧ info = s.cfg.memCells) ∨
      (v = 3 ∧ s.pc + 1 < s.cfg.memCells ∧ info = s.mem.read (s.pc + 1) ∧ (info < 0 ∨ s.cfg.memCells ≤ info)) ∨
      (v = 8 ∧ info = s.x ∧ (info < 0 ∨ s.cfg.memCells ≤ info)) ∨
      (v = 12 ∧ s.sp = s.cfg.memCells - 1 ∧ info = s.cfg.memCells)) ∧
    (t.ctrl = .faulted ∧ t.faultCode = .stackOverflow ∧ t.faultInfo = info ↔
      v = 11 ∧ s.pc + 1 < s.cfg.memCells ∧ s.sp = 0 ∧ info = 0) ∧
    (t.ctrl = .faulted ∧ t.faultCode = .negativePc ∧ t.faultInfo = info ↔
      (v = 7 ∧ s.pc + 1 < s.cfg.memCells ∧ s.flags = false ∧ info = (s.pc : Int) + s.mem.read (s.pc + 1) ∧ info < 0) ∨
      (v = 12 ∧ s.sp + 1 < s.cfg.memCells ∧ info = s.mem.read (s.sp + 1) ∧ info < 0))

/-- 20 R45: what STA, STA_X and JSR write is what the very next opcode fetch or operand fetch of that cell reads. -/
def Obligations.StoresAreSeenByTheNextFetch : Prop :=
  ∀ (s t : State) (k : Nat) (w : Int), s.mem.wf → step s = .next t → t.ctrl = .fetch →
    ((s.At 3 ∧ (k : Int) = s.mem.read (s.pc + 1) ∧ w = s.a) ∨
      (s.At 8 ∧ (k : Int) = s.x ∧ w = s.a) ∨
      (s.At 11 ∧ k = s.sp ∧ w = (s.pc : Int) + 2 ∧ FitsCell s.cfg.wordBits w)) →
    (t.pc = k → t.At w) ∧
    (t.pc + 1 = k → t.fetchCells = [t.opcodeCell, w])

/-! ## Reset, host interface and the end of a run (70) -/

/-- 70 R106: reset, in any state, puts every piece of architectural state at its value in 10 R29. The counter of free
values is the model's own and keeps its value (log entry 11). -/
def Obligations.ResetGivesTheResetValues : Prop :=
  ∀ s : State,
    s.hostReset = { cfg := s.cfg, mem := s.hostReset.mem, a := 0, x := 0, y := 0, flags := false, pc := 0,
                    sp := s.cfg.memCells - 1, halted := false, ctrl := .idle, faultCode := .none, faultInfo := 0,
                    freeCount := s.freeCount } ∧
    ∀ k, s.hostReset.mem.read k = 0

/-- 70 R108, 60 R96: LOAD copies the program to the start of memory and changes nothing else, or answers
PROGRAM_EXCEEDS_MEMORY with no state changed. The third clause is the model's choice (log entry 12): R108 and I17 put a
value no W-bit cell holds outside the model, and the refusal of such a LOAD, before its length is looked at, is the
model's own. -/
def Obligations.LoadCopiesTheProgramToTheStart : Prop :=
  (∀ (s : State) prog, s.ctrl.running = false → (∀ v ∈ prog, FitsCell s.cfg.wordBits v) →
    s.cfg.memCells < prog.length → s.hostLoad prog = .next (s, .programExceedsMemory)) ∧
  (∀ (s : State) prog, s.ctrl.running = false → (∀ v ∈ prog, FitsCell s.cfg.wordBits v) →
    prog.length ≤ s.cfg.memCells → s.mem.wf →
    ∃ m : Memory, s.hostLoad prog = .next ({ s with mem := m }, .ok) ∧ m.wf ∧
      (∀ k, (h : k < prog.length) → m.read k = prog[k]) ∧ ∀ k, prog.length ≤ k → m.read k = s.mem.read k) ∧
  (∀ (s : State) prog, s.ctrl.running = false → (∃ v ∈ prog, ¬FitsCell s.cfg.wordBits v) →
    s.hostLoad prog = .refused .loadValueTooWide)

/-- 70 R109: RUN starts in IDLE at the current pc and does nothing in any other state. -/
def Obligations.RunStartsInIdleOnly : Prop :=
  (∀ s : State, s.ctrl = .idle → s.hostRun = { s with ctrl := .fetch }) ∧
  (∀ s : State, s.ctrl ≠ .idle → s.hostRun = s)

/-- 70 R110: what inspection shows. It is a function of the state, so it changes nothing; while the core runs and
outside 0..N-1 no value is specified. -/
def Obligations.InspectionReadsTheState : Prop :=
  (∀ s : State, s.ctrl.running = false →
    s.inspect (.register 0) = .value s.a ∧ s.inspect (.register 1) = .value s.x ∧
    s.inspect (.register 2) = .value s.y ∧ s.inspect (.register 3) = .value (if s.flags then 1 else 0) ∧
    s.inspect .pc = .value s.pc ∧ s.inspect .sp = .value s.sp ∧
    s.inspect .halted = .value (if s.halted then 1 else 0) ∧
    s.inspect .ctrlState = .value s.ctrl.code ∧ s.inspect .faultCode = .value s.faultCode.number ∧
    s.inspect .faultInfo = .value s.faultInfo ∧
    (∀ k : Nat, k < s.cfg.memCells → s.inspect (.cell k) = .value (s.mem.read k)) ∧
    ∀ addr : Int, addr < 0 ∨ s.cfg.memCells ≤ addr → s.inspect (.cell addr) = .unspecified) ∧
  (∀ (s : State) q, s.ctrl.running = true → s.inspect q = .unspecified)

/-- 70 R111: what each control state accepts: LOAD and inspection outside the running states only, RUN in IDLE only. -/
def Obligations.HostTransactionsByControlState : Prop :=
  (∀ (s : State) prog q, s.ctrl.running = true →
    s.hostLoad prog = .next (s, .unspecified) ∧ s.hostRun = s ∧ s.inspect q = .unspecified) ∧
  (∀ (s : State) prog, s.ctrl.running = false → (∀ v ∈ prog, FitsCell s.cfg.wordBits v) →
    ∃ t r, s.hostLoad prog = .next (t, r) ∧ r ≠ .unspecified) ∧
  (∀ s : State, s.ctrl = .idle → s.hostRun.ctrl = .fetch) ∧
  (∀ s : State, s.ctrl.terminal = true → s.hostRun = s) ∧
  (∀ (s : State) q, s.ctrl.running = false → (∀ addr, q ≠ .cell addr) → ∃ v, s.inspect q = .value v)

/-- 60 R99, R105: a terminal state is left by reset only. A step and RUN change nothing in it, and LOAD, if it answers,
changes nothing but memory. -/
def Obligations.OnlyResetLeavesATerminalState : Prop :=
  ∀ s : State, s.ctrl.terminal = true →
    step s = .next s ∧ s.hostRun = s ∧ s.hostReset.ctrl = .idle ∧
    ∀ prog t r, s.hostLoad prog = .next (t, r) → t = { s with mem := t.mem }

/-- 70 R113: reset, LOAD, RUN: the program stands at cell 0 on, every other cell is 0, the stack is ready, and the core
runs from cell 0. -/
def Obligations.BootRunsTheProgramFromCellZero : Prop :=
  ∀ (s : State) prog, (∀ v ∈ prog, FitsCell s.cfg.wordBits v) → prog.length ≤ s.cfg.memCells →
    ∃ m : Memory, s.hostReset.hostLoad prog = .next ({ s.hostReset with mem := m }, .ok) ∧
      State.hostRun { s.hostReset with mem := m } = { s.hostReset with mem := m, ctrl := .fetch } ∧
      s.hostReset.pc = 0 ∧ s.hostReset.sp = s.cfg.memCells - 1 ∧
      (∀ k, (h : k < prog.length) → m.read k = prog[k]) ∧ ∀ k, prog.length ≤ k → m.read k = 0

/-! ## The invariant -/

/-- Construction (10 R29) meets the invariant, for every legal W and N. The second clause is the same of `State.reset`,
whose parameters W = 32 and N = 65536 are the model's choice (log entry 2): the spec leaves both open. -/
def Obligations.ConstructionMeetsTheInvariant : Prop :=
  (∀ c : Config, c.Valid → (State.resetOf c).Inv) ∧ State.reset.Inv

/-- Every step keeps the invariant: registers within their widths (00 R8), pc at most 2^W - 1 (40 R65), sp in memory
(10 R23), memory in its one form, ctrl_state coherent with halted, pc and the fault status. -/
def Obligations.EveryStepKeepsTheInvariant : Prop :=
  ∀ s t : State, s.Inv → step s = .next t → t.Inv

/-- Whatever sequence of reset, LOAD, RUN and steps brought a state about from construction with legal W and N, it meets
the invariant, and W and N are as constructed. -/
def Obligations.EveryReachableStateMeetsTheInvariant : Prop :=
  ∀ (c : Config) (s : State), c.Valid → Reachable c s → s.Inv ∧ s.cfg = c

/-! ## The control FSM and the datapath (40 sections 2 to 5) -/

/-- 40 R63: the decoder's control signals and the datapath they steer do what the instruction rules of files 41 to 43
say, for every instruction and state; no other value of IR is valid. -/
def Obligations.ControlSignalsGiveTheInstructionRules : Prop :=
  (∀ (i : Instr) (op : Int) (s : State), (i.operand = none ∨ i.operand = some op) →
    ∃ c, controlOf i.opcode = some c ∧ c.length = (encode i).length ∧ exec i s = s.conclude (s.datapath c op)) ∧
  (∀ v, controlOf v = none ↔ v < 0 ∨ 12 < v)

/-- The latches hold what the phases before fetched, from each phase to the next. -/
def Obligations.PhasesKeepTheLatchesConsistent : Prop :=
  ∀ f : FsmState, f.Consistent → f.phase.Consistent

/-- 40 R62, R71: the control FSM implements the step. From any phase of a running core, at most four phases reach the
state the step gives, and every phase between changes ctrl_state and nothing else. -/
def Obligations.FsmPhasesImplementTheStep : Prop :=
  ∀ (f : FsmState) (t : State), f.Consistent → f.arch.ctrl.running = true → step f.arch = .next t →
    ∃ k, 1 ≤ k ∧ k ≤ 4 ∧ (FsmState.phases k f).arch = t ∧
      ∀ j, 1 ≤ j → j < k →
        ∃ c, c ∈ [CtrlState.decode, CtrlState.operand, CtrlState.execute] ∧
          (FsmState.phases j f).arch = { f.arch with ctrl := c }
end

