-- ==== Sys2Proof/Laws/Decode.lean ====
section
/-! SUPPORT. Laws/Decode.lean: the opcode table, looked up once. -/

namespace Sys2Proof

/-- The opcode table as one case list: what `lookupOpcode` finds, and for which values. -/
theorem lookupOpcode_some {v : Int} {f : Format} (h : lookupOpcode v = some f) :
    ∃ r ∈ opcodeTable, r.opcode = v ∧ r.format = f := by
  unfold lookupOpcode at h
  obtain ⟨r, hr, rfl⟩ := Option.map_eq_some_iff.mp h
  exact ⟨r, List.mem_of_find?_eq_some hr, by simpa using List.find?_some hr, rfl⟩

/-- No two rows of the opcode table have one opcode (30 R51). -/
theorem opcodeTable_no_overlap : opcodeTable.Pairwise fun r r' => r.opcode ≠ r'.opcode := by
  simp [opcodeTable]

@[simp] theorem bitsOfCell_lt (W : Nat) (v : Int) : bitsOfCell W v < 2 ^ W := by
  have hp : (0 : Int) < ((2 ^ W : Nat) : Int) := by positivity
  have h1 := Int.emod_lt_of_pos v hp
  have h0 := Int.emod_nonneg v hp.ne'
  unfold bitsOfCell
  omega

/-- A pattern's cell is the pattern's value modulo 2^W (00 R10). -/
theorem cellOfBits_emod (W n : Nat) : cellOfBits W n % ((2 ^ W : Nat) : Int) = (n : Int) % ((2 ^ W : Nat) : Int) :=
  Int.bmod_emod

end Sys2Proof
end

