-- ==== Sys2Proof/Laws/Memory.lean ====
section
/-! SUPPORT. Laws/Memory.lean: the cell memory: a read after a write, what a write leaves alone, and that every
operation keeps the one form. -/

namespace Sys2Proof.Machine

@[simp] theorem Memory.read_nil (k : Nat) : Memory.read [] k = 0 := rfl

theorem Memory.read_cons (j : Nat) (v : Int) (m : Memory) (k : Nat) :
    Memory.read ((j, v) :: m) k = if k = j then v else Memory.read m k := rfl

/-- A cell below every listed index reads as unlisted. -/
theorem Memory.read_of_lt {m : Memory} {k : Nat} (h : ∀ e ∈ m, k < e.1) : m.read k = 0 := by
  induction m with
  | nil => rfl
  | cons e m ih =>
    obtain ⟨j, v⟩ := e
    have hj : k < j := h (j, v) (by simp)
    rw [Memory.read_cons, if_neg (by omega)]
    exact ih fun f hf => h f (by simp [hf])

theorem Memory.read_entry (k : Nat) (v : Int) {m : Memory} (h : ∀ e ∈ m, k < e.1) (k' : Nat) :
    (Memory.entry k v m).read k' = if k' = k then v else m.read k' := by
  unfold Memory.entry
  by_cases hv : v = 0
  · simp only [hv, if_true]
    split
    · subst k'; exact Memory.read_of_lt h
    · rfl
  · rw [if_neg hv]; rfl

/-- What a memory reads as after a write to cell k: the value there, and every other cell as before. -/
theorem Memory.read_write {m : Memory} (hm : m.wf) (k : Nat) (v : Int) (k' : Nat) :
    (m.write k v).read k' = if k' = k then v else m.read k' := by
  induction m with
  | nil => simpa [Memory.write] using Memory.read_entry k v (m := []) (by simp) k'
  | cons e m ih =>
    obtain ⟨j, w⟩ := e
    obtain ⟨hs, hne⟩ := hm
    rw [List.pairwise_cons] at hs
    simp only [Memory.write]
    split
    · rename_i hkj
      apply Memory.read_entry
      intro f hf
      rcases List.mem_cons.mp hf with rfl | hf
      · exact hkj
      · exact lt_trans hkj (hs.1 f hf)
    · split
      · rename_i hkj
        subst hkj
        rw [Memory.read_entry k v hs.1, Memory.read_cons]
        split <;> rfl
      · rename_i hkj
        rw [Memory.read_cons, Memory.read_cons, ih ⟨hs.2, fun f hf => hne f (by simp [hf])⟩]
        split
        · rename_i h; subst h
          rw [if_neg (Ne.symm hkj)]
        · rfl

theorem Memory.read_write_same {m : Memory} (hm : m.wf) (k : Nat) (v : Int) : (m.write k v).read k = v := by
  rw [Memory.read_write hm, if_pos rfl]

/-- A write leaves every other cell alone, whatever the list's form. -/
theorem Memory.read_write_other (m : Memory) {k k' : Nat} (h : k' ≠ k) (v : Int) :
    (m.write k v).read k' = m.read k' := by
  have hentry : ∀ m : Memory, (Memory.entry k v m).read k' = m.read k' := by
    intro m
    unfold Memory.entry
    split
    · rfl
    · rw [Memory.read_cons, if_neg h]
  induction m with
  | nil => exact hentry []
  | cons e m ih =>
    obtain ⟨j, w⟩ := e
    simp only [Memory.write]
    split
    · exact hentry _
    · split
      · rename_i hkj; subst hkj
        rw [hentry, Memory.read_cons, if_neg h]
      · rw [Memory.read_cons, Memory.read_cons, ih]

/-- Every entry after a write is the written one or was there before. -/
theorem Memory.mem_write {m : Memory} {k : Nat} {v : Int} {e : Nat × Int} (h : e ∈ m.write k v) :
    e = (k, v) ∨ e ∈ m := by
  induction m with
  | nil =>
    simp only [Memory.write, Memory.entry] at h
    split at h <;> simp_all
  | cons f m ih =>
    obtain ⟨j, w⟩ := f
    simp only [Memory.write, Memory.entry] at h
    split at h
    · split at h <;> simp_all
    · split at h
      · split at h
        · exact .inr (List.mem_cons_of_mem _ h)
        · rename_i hkj _
          subst hkj
          rcases List.mem_cons.mp h with rfl | h
          · exact .inl rfl
          · exact .inr (List.mem_cons_of_mem _ h)
      · rcases List.mem_cons.mp h with rfl | h
        · simp
        · rcases ih h with rfl | h <;> simp_all

theorem Memory.entry_wf {k : Nat} {v : Int} {m : Memory} (hm : m.wf) (h : ∀ e ∈ m, k < e.1) :
    (Memory.entry k v m).wf := by
  unfold Memory.entry
  split
  · exact hm
  · rename_i hv
    refine ⟨List.pairwise_cons.mpr ⟨h, hm.1⟩, fun e he => ?_⟩
    rcases List.mem_cons.mp he with rfl | he
    · exact hv
    · exact hm.2 e he

theorem Memory.wf_tail {e : Nat × Int} {m : Memory} (h : Memory.wf (e :: m)) : m.wf :=
  ⟨(List.pairwise_cons.mp h.1).2, fun f hf => h.2 f (by simp [hf])⟩

/-- A write keeps the one form. -/
theorem Memory.write_wf {m : Memory} (hm : m.wf) (k : Nat) (v : Int) : (m.write k v).wf := by
  induction m with
  | nil => exact Memory.entry_wf hm (by simp)
  | cons e m ih =>
    obtain ⟨j, w⟩ := e
    have hs := List.pairwise_cons.mp hm.1
    simp only [Memory.write]
    split
    · rename_i hkj
      apply Memory.entry_wf hm
      intro f hf
      rcases List.mem_cons.mp hf with rfl | hf
      · exact hkj
      · exact lt_trans hkj (hs.1 f hf)
    · split
      · rename_i hkj; subst hkj
        exact Memory.entry_wf (Memory.wf_tail hm) hs.1
      · have ht := ih (Memory.wf_tail hm)
        refine ⟨List.pairwise_cons.mpr ⟨fun f hf => ?_, ht.1⟩, fun f hf => ?_⟩
        · rcases Memory.mem_write hf with rfl | hf
          · show j < k; omega
          · exact hs.1 f hf
        · rcases List.mem_cons.mp hf with rfl | hf
          · exact hm.2 _ (by simp)
          · exact ht.2 f hf

theorem Memory.writeAll_wf {m : Memory} (hm : m.wf) (k : Nat) (vs : List Int) : (m.writeAll k vs).wf := by
  induction vs generalizing m k with
  | nil => exact hm
  | cons v vs ih => exact ih (Memory.write_wf hm k v) (k + 1)

/-- Every entry after a write of consecutive cells lies in them with one of their values, or was there before. -/
theorem Memory.mem_writeAll {m : Memory} {k : Nat} {vs : List Int} {e : Nat × Int} (h : e ∈ m.writeAll k vs) :
    (k ≤ e.1 ∧ e.1 < k + vs.length ∧ e.2 ∈ vs) ∨ e ∈ m := by
  induction vs generalizing m k with
  | nil => exact .inr h
  | cons v vs ih =>
    rcases ih h with ⟨h1, h2, h3⟩ | h
    · exact .inl ⟨by omega, by simp only [List.length_cons]; omega, by simp [h3]⟩
    · rcases Memory.mem_write h with rfl | h
      · exact .inl ⟨le_rfl, by simp, by simp⟩
      · exact .inr h

/-- What a memory reads as after consecutive writes from cell k on. -/
theorem Memory.read_writeAll {m : Memory} (hm : m.wf) (k : Nat) (vs : List Int) (j : Nat) :
    (m.writeAll k vs).read j = if h : k ≤ j ∧ j < k + vs.length then vs[j - k]'(by omega) else m.read j := by
  induction vs generalizing m k with
  | nil =>
    rw [dif_neg (by simp only [List.length_nil]; omega)]
    rfl
  | cons v vs ih =>
    simp only [Memory.writeAll]
    rw [ih (Memory.write_wf hm k v), Memory.read_write hm]
    simp only [List.length_cons]
    by_cases hj : j = k
    · subst hj
      simp
    · by_cases hlt : k + 1 ≤ j ∧ j < k + 1 + vs.length
      · rw [dif_pos hlt, dif_pos (by omega)]
        have : j - k = (j - (k + 1)) + 1 := by omega
        simp [this]
      · rw [dif_neg hlt, dif_neg (by omega), if_neg hj]

/-- Equal memories are equal data: two memories in the one form that read alike are the same list. -/
theorem Memory.ext_read {m m' : Memory} (hm : m.wf) (hm' : m'.wf) (h : ∀ k, m.read k = m'.read k) : m = m' := by
  induction m generalizing m' with
  | nil =>
    cases m' with
    | nil => rfl
    | cons f m' =>
      have := h f.1
      rw [Memory.read_nil, Memory.read_cons, if_pos rfl] at this
      exact absurd this.symm (hm'.2 f (by simp))
  | cons e m ih =>
    obtain ⟨j, v⟩ := e
    have hs := List.pairwise_cons.mp hm.1
    have hv : v ≠ 0 := hm.2 (j, v) (by simp)
    cases m' with
    | nil =>
      have := h j
      rw [Memory.read_nil, Memory.read_cons, if_pos rfl] at this
      exact absurd this hv
    | cons f m' =>
      obtain ⟨i, w⟩ := f
      have hs' := List.pairwise_cons.mp hm'.1
      have hw : w ≠ 0 := hm'.2 (i, w) (by simp)
      have hji : j = i := by
        rcases lt_trichotomy j i with hlt | heq | hgt
        · have h1 := h j
          rw [Memory.read_cons, if_pos rfl, Memory.read_cons, if_neg (by omega),
            Memory.read_of_lt fun g hg => lt_trans hlt (hs'.1 g hg)] at h1
          exact absurd h1 hv
        · exact heq
        · have h1 := h i
          rw [Memory.read_cons, if_neg (by omega), Memory.read_cons, if_pos rfl,
            Memory.read_of_lt fun g hg => lt_trans hgt (hs.1 g hg)] at h1
          exact absurd h1.symm hw
      subst hji
      have hvw : v = w := by simpa [Memory.read_cons] using h j
      subst hvw
      congr 1
      apply ih (Memory.wf_tail hm) (Memory.wf_tail hm')
      intro k
      by_cases hk : k = j
      · subst hk
        rw [Memory.read_of_lt hs.1, Memory.read_of_lt hs'.1]
      · simpa [Memory.read_cons, hk] using h k

end Sys2Proof.Machine
end

