-- ==== Sys2Proof/Laws/State.lean ====
section
/-! SUPPORT. Laws/State.lean: what each update of the state leaves in each field, true by unfolding the record once, so
that no later proof unfolds an update. -/

namespace Sys2Proof.Machine

@[simp] theorem State.setMem_cfg (s : State) (m : Memory) : (s.setMem m).cfg = s.cfg := rfl
@[simp] theorem State.setMem_mem (s : State) (m : Memory) : (s.setMem m).mem = m := rfl
@[simp] theorem State.setMem_a (s : State) (m : Memory) : (s.setMem m).a = s.a := rfl
@[simp] theorem State.setMem_x (s : State) (m : Memory) : (s.setMem m).x = s.x := rfl
@[simp] theorem State.setMem_y (s : State) (m : Memory) : (s.setMem m).y = s.y := rfl
@[simp] theorem State.setMem_flags (s : State) (m : Memory) : (s.setMem m).flags = s.flags := rfl
@[simp] theorem State.setMem_pc (s : State) (m : Memory) : (s.setMem m).pc = s.pc := rfl
@[simp] theorem State.setMem_sp (s : State) (m : Memory) : (s.setMem m).sp = s.sp := rfl
@[simp] theorem State.setMem_halted (s : State) (m : Memory) : (s.setMem m).halted = s.halted := rfl
@[simp] theorem State.setMem_ctrl (s : State) (m : Memory) : (s.setMem m).ctrl = s.ctrl := rfl
@[simp] theorem State.setMem_faultCode (s : State) (m : Memory) : (s.setMem m).faultCode = s.faultCode := rfl
@[simp] theorem State.setMem_faultInfo (s : State) (m : Memory) : (s.setMem m).faultInfo = s.faultInfo := rfl
@[simp] theorem State.setMem_freeCount (s : State) (m : Memory) : (s.setMem m).freeCount = s.freeCount := rfl

@[simp] theorem State.setA_cfg (s : State) (v : Int) : (s.setA v).cfg = s.cfg := rfl
@[simp] theorem State.setA_mem (s : State) (v : Int) : (s.setA v).mem = s.mem := rfl
@[simp] theorem State.setA_a (s : State) (v : Int) : (s.setA v).a = v := rfl
@[simp] theorem State.setA_x (s : State) (v : Int) : (s.setA v).x = s.x := rfl
@[simp] theorem State.setA_y (s : State) (v : Int) : (s.setA v).y = s.y := rfl
@[simp] theorem State.setA_flags (s : State) (v : Int) : (s.setA v).flags = s.flags := rfl
@[simp] theorem State.setA_pc (s : State) (v : Int) : (s.setA v).pc = s.pc := rfl
@[simp] theorem State.setA_sp (s : State) (v : Int) : (s.setA v).sp = s.sp := rfl
@[simp] theorem State.setA_halted (s : State) (v : Int) : (s.setA v).halted = s.halted := rfl
@[simp] theorem State.setA_ctrl (s : State) (v : Int) : (s.setA v).ctrl = s.ctrl := rfl
@[simp] theorem State.setA_faultCode (s : State) (v : Int) : (s.setA v).faultCode = s.faultCode := rfl
@[simp] theorem State.setA_faultInfo (s : State) (v : Int) : (s.setA v).faultInfo = s.faultInfo := rfl
@[simp] theorem State.setA_freeCount (s : State) (v : Int) : (s.setA v).freeCount = s.freeCount := rfl

@[simp] theorem State.setX_cfg (s : State) (v : Int) : (s.setX v).cfg = s.cfg := rfl
@[simp] theorem State.setX_mem (s : State) (v : Int) : (s.setX v).mem = s.mem := rfl
@[simp] theorem State.setX_a (s : State) (v : Int) : (s.setX v).a = s.a := rfl
@[simp] theorem State.setX_x (s : State) (v : Int) : (s.setX v).x = v := rfl
@[simp] theorem State.setX_y (s : State) (v : Int) : (s.setX v).y = s.y := rfl
@[simp] theorem State.setX_flags (s : State) (v : Int) : (s.setX v).flags = s.flags := rfl
@[simp] theorem State.setX_pc (s : State) (v : Int) : (s.setX v).pc = s.pc := rfl
@[simp] theorem State.setX_sp (s : State) (v : Int) : (s.setX v).sp = s.sp := rfl
@[simp] theorem State.setX_halted (s : State) (v : Int) : (s.setX v).halted = s.halted := rfl
@[simp] theorem State.setX_ctrl (s : State) (v : Int) : (s.setX v).ctrl = s.ctrl := rfl
@[simp] theorem State.setX_faultCode (s : State) (v : Int) : (s.setX v).faultCode = s.faultCode := rfl
@[simp] theorem State.setX_faultInfo (s : State) (v : Int) : (s.setX v).faultInfo = s.faultInfo := rfl
@[simp] theorem State.setX_freeCount (s : State) (v : Int) : (s.setX v).freeCount = s.freeCount := rfl

@[simp] theorem State.setY_cfg (s : State) (v : Int) : (s.setY v).cfg = s.cfg := rfl
@[simp] theorem State.setY_mem (s : State) (v : Int) : (s.setY v).mem = s.mem := rfl
@[simp] theorem State.setY_a (s : State) (v : Int) : (s.setY v).a = s.a := rfl
@[simp] theorem State.setY_x (s : State) (v : Int) : (s.setY v).x = s.x := rfl
@[simp] theorem State.setY_y (s : State) (v : Int) : (s.setY v).y = v := rfl
@[simp] theorem State.setY_flags (s : State) (v : Int) : (s.setY v).flags = s.flags := rfl
@[simp] theorem State.setY_pc (s : State) (v : Int) : (s.setY v).pc = s.pc := rfl
@[simp] theorem State.setY_sp (s : State) (v : Int) : (s.setY v).sp = s.sp := rfl
@[simp] theorem State.setY_halted (s : State) (v : Int) : (s.setY v).halted = s.halted := rfl
@[simp] theorem State.setY_ctrl (s : State) (v : Int) : (s.setY v).ctrl = s.ctrl := rfl
@[simp] theorem State.setY_faultCode (s : State) (v : Int) : (s.setY v).faultCode = s.faultCode := rfl
@[simp] theorem State.setY_faultInfo (s : State) (v : Int) : (s.setY v).faultInfo = s.faultInfo := rfl
@[simp] theorem State.setY_freeCount (s : State) (v : Int) : (s.setY v).freeCount = s.freeCount := rfl

@[simp] theorem State.setFlags_cfg (s : State) (b : Bool) : (s.setFlags b).cfg = s.cfg := rfl
@[simp] theorem State.setFlags_mem (s : State) (b : Bool) : (s.setFlags b).mem = s.mem := rfl
@[simp] theorem State.setFlags_a (s : State) (b : Bool) : (s.setFlags b).a = s.a := rfl
@[simp] theorem State.setFlags_x (s : State) (b : Bool) : (s.setFlags b).x = s.x := rfl
@[simp] theorem State.setFlags_y (s : State) (b : Bool) : (s.setFlags b).y = s.y := rfl
@[simp] theorem State.setFlags_flags (s : State) (b : Bool) : (s.setFlags b).flags = b := rfl
@[simp] theorem State.setFlags_pc (s : State) (b : Bool) : (s.setFlags b).pc = s.pc := rfl
@[simp] theorem State.setFlags_sp (s : State) (b : Bool) : (s.setFlags b).sp = s.sp := rfl
@[simp] theorem State.setFlags_halted (s : State) (b : Bool) : (s.setFlags b).halted = s.halted := rfl
@[simp] theorem State.setFlags_ctrl (s : State) (b : Bool) : (s.setFlags b).ctrl = s.ctrl := rfl
@[simp] theorem State.setFlags_faultCode (s : State) (b : Bool) : (s.setFlags b).faultCode = s.faultCode := rfl
@[simp] theorem State.setFlags_faultInfo (s : State) (b : Bool) : (s.setFlags b).faultInfo = s.faultInfo := rfl
@[simp] theorem State.setFlags_freeCount (s : State) (b : Bool) : (s.setFlags b).freeCount = s.freeCount := rfl

@[simp] theorem State.setPc_cfg (s : State) (p : Nat) : (s.setPc p).cfg = s.cfg := rfl
@[simp] theorem State.setPc_mem (s : State) (p : Nat) : (s.setPc p).mem = s.mem := rfl
@[simp] theorem State.setPc_a (s : State) (p : Nat) : (s.setPc p).a = s.a := rfl
@[simp] theorem State.setPc_x (s : State) (p : Nat) : (s.setPc p).x = s.x := rfl
@[simp] theorem State.setPc_y (s : State) (p : Nat) : (s.setPc p).y = s.y := rfl
@[simp] theorem State.setPc_flags (s : State) (p : Nat) : (s.setPc p).flags = s.flags := rfl
@[simp] theorem State.setPc_pc (s : State) (p : Nat) : (s.setPc p).pc = p := rfl
@[simp] theorem State.setPc_sp (s : State) (p : Nat) : (s.setPc p).sp = s.sp := rfl
@[simp] theorem State.setPc_halted (s : State) (p : Nat) : (s.setPc p).halted = s.halted := rfl
@[simp] theorem State.setPc_ctrl (s : State) (p : Nat) : (s.setPc p).ctrl = s.ctrl := rfl
@[simp] theorem State.setPc_faultCode (s : State) (p : Nat) : (s.setPc p).faultCode = s.faultCode := rfl
@[simp] theorem State.setPc_faultInfo (s : State) (p : Nat) : (s.setPc p).faultInfo = s.faultInfo := rfl
@[simp] theorem State.setPc_freeCount (s : State) (p : Nat) : (s.setPc p).freeCount = s.freeCount := rfl

@[simp] theorem State.setSp_cfg (s : State) (p : Nat) : (s.setSp p).cfg = s.cfg := rfl
@[simp] theorem State.setSp_mem (s : State) (p : Nat) : (s.setSp p).mem = s.mem := rfl
@[simp] theorem State.setSp_a (s : State) (p : Nat) : (s.setSp p).a = s.a := rfl
@[simp] theorem State.setSp_x (s : State) (p : Nat) : (s.setSp p).x = s.x := rfl
@[simp] theorem State.setSp_y (s : State) (p : Nat) : (s.setSp p).y = s.y := rfl
@[simp] theorem State.setSp_flags (s : State) (p : Nat) : (s.setSp p).flags = s.flags := rfl
@[simp] theorem State.setSp_pc (s : State) (p : Nat) : (s.setSp p).pc = s.pc := rfl
@[simp] theorem State.setSp_sp (s : State) (p : Nat) : (s.setSp p).sp = p := rfl
@[simp] theorem State.setSp_halted (s : State) (p : Nat) : (s.setSp p).halted = s.halted := rfl
@[simp] theorem State.setSp_ctrl (s : State) (p : Nat) : (s.setSp p).ctrl = s.ctrl := rfl
@[simp] theorem State.setSp_faultCode (s : State) (p : Nat) : (s.setSp p).faultCode = s.faultCode := rfl
@[simp] theorem State.setSp_faultInfo (s : State) (p : Nat) : (s.setSp p).faultInfo = s.faultInfo := rfl
@[simp] theorem State.setSp_freeCount (s : State) (p : Nat) : (s.setSp p).freeCount = s.freeCount := rfl

@[simp] theorem State.setHalted_cfg (s : State) (b : Bool) : (s.setHalted b).cfg = s.cfg := rfl
@[simp] theorem State.setHalted_mem (s : State) (b : Bool) : (s.setHalted b).mem = s.mem := rfl
@[simp] theorem State.setHalted_a (s : State) (b : Bool) : (s.setHalted b).a = s.a := rfl
@[simp] theorem State.setHalted_x (s : State) (b : Bool) : (s.setHalted b).x = s.x := rfl
@[simp] theorem State.setHalted_y (s : State) (b : Bool) : (s.setHalted b).y = s.y := rfl
@[simp] theorem State.setHalted_flags (s : State) (b : Bool) : (s.setHalted b).flags = s.flags := rfl
@[simp] theorem State.setHalted_pc (s : State) (b : Bool) : (s.setHalted b).pc = s.pc := rfl
@[simp] theorem State.setHalted_sp (s : State) (b : Bool) : (s.setHalted b).sp = s.sp := rfl
@[simp] theorem State.setHalted_halted (s : State) (b : Bool) : (s.setHalted b).halted = b := rfl
@[simp] theorem State.setHalted_ctrl (s : State) (b : Bool) : (s.setHalted b).ctrl = s.ctrl := rfl
@[simp] theorem State.setHalted_faultCode (s : State) (b : Bool) : (s.setHalted b).faultCode = s.faultCode := rfl
@[simp] theorem State.setHalted_faultInfo (s : State) (b : Bool) : (s.setHalted b).faultInfo = s.faultInfo := rfl
@[simp] theorem State.setHalted_freeCount (s : State) (b : Bool) : (s.setHalted b).freeCount = s.freeCount := rfl

@[simp] theorem State.setCtrl_cfg (s : State) (c : CtrlState) : (s.setCtrl c).cfg = s.cfg := rfl
@[simp] theorem State.setCtrl_mem (s : State) (c : CtrlState) : (s.setCtrl c).mem = s.mem := rfl
@[simp] theorem State.setCtrl_a (s : State) (c : CtrlState) : (s.setCtrl c).a = s.a := rfl
@[simp] theorem State.setCtrl_x (s : State) (c : CtrlState) : (s.setCtrl c).x = s.x := rfl
@[simp] theorem State.setCtrl_y (s : State) (c : CtrlState) : (s.setCtrl c).y = s.y := rfl
@[simp] theorem State.setCtrl_flags (s : State) (c : CtrlState) : (s.setCtrl c).flags = s.flags := rfl
@[simp] theorem State.setCtrl_pc (s : State) (c : CtrlState) : (s.setCtrl c).pc = s.pc := rfl
@[simp] theorem State.setCtrl_sp (s : State) (c : CtrlState) : (s.setCtrl c).sp = s.sp := rfl
@[simp] theorem State.setCtrl_halted (s : State) (c : CtrlState) : (s.setCtrl c).halted = s.halted := rfl
@[simp] theorem State.setCtrl_ctrl (s : State) (c : CtrlState) : (s.setCtrl c).ctrl = c := rfl
@[simp] theorem State.setCtrl_faultCode (s : State) (c : CtrlState) : (s.setCtrl c).faultCode = s.faultCode := rfl
@[simp] theorem State.setCtrl_faultInfo (s : State) (c : CtrlState) : (s.setCtrl c).faultInfo = s.faultInfo := rfl
@[simp] theorem State.setCtrl_freeCount (s : State) (c : CtrlState) : (s.setCtrl c).freeCount = s.freeCount := rfl

@[simp] theorem State.enterFault_cfg (s : State) (e : FatalError) : (s.enterFault e).cfg = s.cfg := rfl
@[simp] theorem State.enterFault_mem (s : State) (e : FatalError) : (s.enterFault e).mem = s.mem := rfl
@[simp] theorem State.enterFault_a (s : State) (e : FatalError) : (s.enterFault e).a = s.a := rfl
@[simp] theorem State.enterFault_x (s : State) (e : FatalError) : (s.enterFault e).x = s.x := rfl
@[simp] theorem State.enterFault_y (s : State) (e : FatalError) : (s.enterFault e).y = s.y := rfl
@[simp] theorem State.enterFault_flags (s : State) (e : FatalError) : (s.enterFault e).flags = s.flags := rfl
@[simp] theorem State.enterFault_pc (s : State) (e : FatalError) : (s.enterFault e).pc = s.pc := rfl
@[simp] theorem State.enterFault_sp (s : State) (e : FatalError) : (s.enterFault e).sp = s.sp := rfl
@[simp] theorem State.enterFault_halted (s : State) (e : FatalError) : (s.enterFault e).halted = s.halted := rfl
@[simp] theorem State.enterFault_ctrl (s : State) (e : FatalError) : (s.enterFault e).ctrl = .faulted := rfl
@[simp] theorem State.enterFault_faultCode (s : State) (e : FatalError) : (s.enterFault e).faultCode = e.code := rfl
@[simp] theorem State.enterFault_faultInfo (s : State) (e : FatalError) : (s.enterFault e).faultInfo = e.info := rfl
@[simp] theorem State.enterFault_freeCount (s : State) (e : FatalError) : (s.enterFault e).freeCount = s.freeCount := rfl

@[simp] theorem State.resetOf_cfg (c : Config) : (State.resetOf c).cfg = c := rfl
@[simp] theorem State.resetOf_mem (c : Config) : (State.resetOf c).mem = [] := rfl
@[simp] theorem State.resetOf_a (c : Config) : (State.resetOf c).a = 0 := rfl
@[simp] theorem State.resetOf_x (c : Config) : (State.resetOf c).x = 0 := rfl
@[simp] theorem State.resetOf_y (c : Config) : (State.resetOf c).y = 0 := rfl
@[simp] theorem State.resetOf_flags (c : Config) : (State.resetOf c).flags = false := rfl
@[simp] theorem State.resetOf_pc (c : Config) : (State.resetOf c).pc = 0 := rfl
@[simp] theorem State.resetOf_sp (c : Config) : (State.resetOf c).sp = c.memCells - 1 := rfl
@[simp] theorem State.resetOf_halted (c : Config) : (State.resetOf c).halted = false := rfl
@[simp] theorem State.resetOf_ctrl (c : Config) : (State.resetOf c).ctrl = .idle := rfl
@[simp] theorem State.resetOf_faultCode (c : Config) : (State.resetOf c).faultCode = .none := rfl
@[simp] theorem State.resetOf_faultInfo (c : Config) : (State.resetOf c).faultInfo = 0 := rfl
@[simp] theorem State.resetOf_freeCount (c : Config) : (State.resetOf c).freeCount = 0 := rfl

@[simp] theorem State.hostReset_cfg (s : State) : s.hostReset.cfg = s.cfg := rfl
@[simp] theorem State.hostReset_mem (s : State) : s.hostReset.mem = [] := rfl
@[simp] theorem State.hostReset_a (s : State) : s.hostReset.a = 0 := rfl
@[simp] theorem State.hostReset_x (s : State) : s.hostReset.x = 0 := rfl
@[simp] theorem State.hostReset_y (s : State) : s.hostReset.y = 0 := rfl
@[simp] theorem State.hostReset_flags (s : State) : s.hostReset.flags = false := rfl
@[simp] theorem State.hostReset_pc (s : State) : s.hostReset.pc = 0 := rfl
@[simp] theorem State.hostReset_sp (s : State) : s.hostReset.sp = s.cfg.memCells - 1 := rfl
@[simp] theorem State.hostReset_halted (s : State) : s.hostReset.halted = false := rfl
@[simp] theorem State.hostReset_ctrl (s : State) : s.hostReset.ctrl = .idle := rfl
@[simp] theorem State.hostReset_faultCode (s : State) : s.hostReset.faultCode = .none := rfl
@[simp] theorem State.hostReset_faultInfo (s : State) : s.hostReset.faultInfo = 0 := rfl
@[simp] theorem State.hostReset_freeCount (s : State) : s.hostReset.freeCount = s.freeCount := rfl

/-! JSR's return cell changes at most the counter of free values. -/

@[simp] theorem State.returnCell_fst_cfg (s : State) : s.returnCell.1.cfg = s.cfg := by
  unfold State.returnCell; split <;> rfl
@[simp] theorem State.returnCell_fst_mem (s : State) : s.returnCell.1.mem = s.mem := by
  unfold State.returnCell; split <;> rfl
@[simp] theorem State.returnCell_fst_a (s : State) : s.returnCell.1.a = s.a := by
  unfold State.returnCell; split <;> rfl
@[simp] theorem State.returnCell_fst_x (s : State) : s.returnCell.1.x = s.x := by
  unfold State.returnCell; split <;> rfl
@[simp] theorem State.returnCell_fst_y (s : State) : s.returnCell.1.y = s.y := by
  unfold State.returnCell; split <;> rfl
@[simp] theorem State.returnCell_fst_flags (s : State) : s.returnCell.1.flags = s.flags := by
  unfold State.returnCell; split <;> rfl
@[simp] theorem State.returnCell_fst_pc (s : State) : s.returnCell.1.pc = s.pc := by
  unfold State.returnCell; split <;> rfl
@[simp] theorem State.returnCell_fst_sp (s : State) : s.returnCell.1.sp = s.sp := by
  unfold State.returnCell; split <;> rfl
@[simp] theorem State.returnCell_fst_halted (s : State) : s.returnCell.1.halted = s.halted := by
  unfold State.returnCell; split <;> rfl
@[simp] theorem State.returnCell_fst_ctrl (s : State) : s.returnCell.1.ctrl = s.ctrl := by
  unfold State.returnCell; split <;> rfl
@[simp] theorem State.returnCell_fst_faultCode (s : State) : s.returnCell.1.faultCode = s.faultCode := by
  unfold State.returnCell; split <;> rfl
@[simp] theorem State.returnCell_fst_faultInfo (s : State) : s.returnCell.1.faultInfo = s.faultInfo := by
  unfold State.returnCell; split <;> rfl

end Sys2Proof.Machine
end

