-- ==== Sys2Proof/Laws/Word.lean ====
section
/-! SUPPORT. Laws/Word.lean: what wrap_W is (00 R11): in range, congruent, and the identity on values that fit. -/

namespace Sys2Proof

/-- A W-bit pattern has twice as many values as a non-negative signed cell. -/
theorem two_pow_eq_double {W : Nat} (h : 1 ≤ W) : 2 ^ W = 2 * 2 ^ (W - 1) := by
  obtain ⟨k, rfl⟩ : ∃ k, W = k + 1 := ⟨W - 1, by omega⟩
  simp [pow_succ, Nat.mul_comm]

theorem wrap_fits {W : Nat} (h : 1 ≤ W) (v : Int) : FitsCell W (wrap W v) := by
  have h2 := two_pow_eq_double h
  have hp : 0 < 2 ^ (W - 1) := by positivity
  have hlo := Int.le_bmod (x := v) (m := 2 ^ W) (by omega)
  have hhi := Int.bmod_lt (x := v) (m := 2 ^ W) (by omega)
  rw [h2] at hlo hhi
  unfold wrap FitsCell
  rw [h2]
  push_cast at hlo hhi ⊢
  constructor <;> omega

/-- wrap_W(v) = v (mod 2^W). -/
theorem wrap_emod (W : Nat) (v : Int) : wrap W v % ((2 ^ W : Nat) : Int) = v % ((2 ^ W : Nat) : Int) :=
  Int.bmod_emod

/-- wrap_W changes nothing that fits already. -/
theorem wrap_of_fits {W : Nat} (h : 1 ≤ W) {v : Int} (hv : FitsCell W v) : wrap W v = v := by
  have h2 := two_pow_eq_double h
  unfold FitsCell at hv
  unfold wrap
  apply Int.bmod_eq_of_le <;> rw [h2] <;> push_cast at hv ⊢ <;> omega

/-- A value that fits a cell fits fault_info, which is one bit wider (10 R26). -/
theorem fitsInfo_of_fitsCell {W : Nat} (h : 1 ≤ W) {v : Int} (hv : FitsCell W v) : FitsInfo W v := by
  have h2 := two_pow_eq_double h
  unfold FitsCell at hv
  unfold FitsInfo
  rw [h2]
  push_cast at hv ⊢
  constructor <;> omega

end Sys2Proof
end

