-- ==== Sys2Proof/Laws/Ops.lean ====
section
/-! SUPPORT. Laws/Ops.lean: for each shared operation, once, everything it can do. Later proofs cite these and do not
unfold the operation. -/

namespace Sys2Proof.Machine

/-! The memory port (00 R12, 20 R34). -/

theorem State.memRead_ok {s : State} {addr v : Int} (h : s.memRead addr = .ok v) :
    0 ≤ addr ∧ addr < s.cfg.memCells ∧ v = s.mem.read addr.toNat := by
  unfold State.memRead at h
  split at h
  · rename_i hb; cases h; exact ⟨hb.1, hb.2, rfl⟩
  · cases h

theorem State.memRead_error {s : State} {addr : Int} {e : FatalError} (h : s.memRead addr = .error e) :
    ¬(0 ≤ addr ∧ addr < s.cfg.memCells) ∧ e = .memoryAccessOutOfRange addr := by
  unfold State.memRead at h
  split at h
  · cases h
  · rename_i hb; cases h; exact ⟨hb, rfl⟩

theorem State.memWrite_ok {s t : State} {addr v : Int} (h : s.memWrite addr v = .ok t) :
    0 ≤ addr ∧ addr < s.cfg.memCells ∧ t = s.setMem (s.mem.write addr.toNat v) := by
  unfold State.memWrite at h
  split at h
  · rename_i hb; cases h; exact ⟨hb.1, hb.2, rfl⟩
  · cases h

theorem State.memWrite_error {s : State} {addr v : Int} {e : FatalError} (h : s.memWrite addr v = .error e) :
    ¬(0 ≤ addr ∧ addr < s.cfg.memCells) ∧ e = .memoryAccessOutOfRange addr := by
  unfold State.memWrite at h
  split at h
  · cases h
  · rename_i hb; cases h; exact ⟨hb, rfl⟩

/-! The stack primitives (40 R66). -/

theorem State.push_ok {s t : State} {v : Int} (h : s.push v = .ok t) :
    0 < s.sp ∧ s.sp < s.cfg.memCells ∧ t = (s.setMem (s.mem.write s.sp v)).setSp (s.sp - 1) := by
  unfold State.push at h
  split at h
  · cases h
  · rename_i hsp
    cases hw : s.memWrite s.sp v with
    | error e => rw [hw] at h; cases h
    | ok u =>
      rw [hw] at h
      cases h
      obtain ⟨-, h2, rfl⟩ := State.memWrite_ok hw
      exact ⟨by omega, by exact_mod_cast h2, rfl⟩

theorem State.push_error {s : State} {v : Int} {e : FatalError} (h : s.push v = .error e) :
    (s.sp = 0 ∧ e = .stackOverflow 0) ∨
      (0 < s.sp ∧ s.cfg.memCells ≤ s.sp ∧ e = .memoryAccessOutOfRange s.sp) := by
  unfold State.push at h
  split at h
  · rename_i hsp; cases h; exact .inl ⟨hsp, rfl⟩
  · rename_i hsp
    cases hw : s.memWrite s.sp v with
    | ok u => rw [hw] at h; cases h
    | error e' =>
      rw [hw] at h
      cases h
      obtain ⟨h2, rfl⟩ := State.memWrite_error hw
      exact .inr ⟨by omega, by omega, rfl⟩

theorem State.pop_ok {s t : State} {v : Int} (h : s.pop = .ok (t, v)) :
    s.sp + 1 < s.cfg.memCells ∧ t = s.setSp (s.sp + 1) ∧ v = s.mem.read (s.sp + 1) := by
  unfold State.pop at h
  cases hr : s.memRead ((s.sp : Int) + 1) with
  | error e => rw [hr] at h; cases h
  | ok w =>
    rw [hr] at h
    cases h
    obtain ⟨-, h2, rfl⟩ := State.memRead_ok hr
    exact ⟨by omega, rfl, by congr 1⟩

theorem State.pop_error {s : State} {e : FatalError} (h : s.pop = .error e) :
    s.cfg.memCells ≤ s.sp + 1 ∧ e = .memoryAccessOutOfRange ((s.sp : Int) + 1) := by
  unfold State.pop at h
  cases hr : s.memRead ((s.sp : Int) + 1) with
  | ok w => rw [hr] at h; cases h
  | error e' =>
    rw [hr] at h
    cases h
    obtain ⟨h2, rfl⟩ := State.memRead_error hr
    exact ⟨by omega, rfl⟩

/-! JSR's return cell (43 R88, log entry 10). -/

theorem State.returnCell_of_fits {s : State} (h : FitsCell s.cfg.wordBits ((s.pc : Int) + 2)) :
    s.returnCell = (s, (s.pc : Int) + 2) := by
  unfold State.returnCell; rw [if_pos h]

/-- The return cell always holds a W-bit value. -/
theorem State.returnCell_fits {s : State} (hW : 1 ≤ s.cfg.wordBits) : FitsCell s.cfg.wordBits s.returnCell.2 := by
  unfold State.returnCell
  split
  · assumption
  · exact wrap_fits hW _

/-! The program-counter multiplexer (40 R65). -/

theorem pcOfTarget_ok {t : Int} {p : Nat} (h : pcOfTarget t = .ok p) : 0 ≤ t ∧ p = t.toNat := by
  unfold pcOfTarget at h
  split at h
  · cases h
  · cases h; exact ⟨by omega, rfl⟩

theorem pcOfTarget_error {t : Int} {e : FatalError} (h : pcOfTarget t = .error e) : t < 0 ∧ e = .negativePc t := by
  unfold pcOfTarget at h
  split at h
  · cases h; exact ⟨by assumption, rfl⟩
  · cases h

theorem State.branchNext_ok {s : State} {op : Int} {p : Nat} (h : s.branchNext op = .ok p) :
    (s.flags = false ∧ 0 ≤ (s.pc : Int) + op ∧ p = ((s.pc : Int) + op).toNat) ∨ (s.flags = true ∧ p = s.pc + 2) := by
  unfold State.branchNext State.branchTaken at h
  cases hf : s.flags
  · rw [hf] at h
    exact .inl ⟨rfl, pcOfTarget_ok h⟩
  · rw [hf] at h
    cases h
    exact .inr ⟨rfl, rfl⟩

theorem State.branchNext_error {s : State} {op : Int} {e : FatalError} (h : s.branchNext op = .error e) :
    s.flags = false ∧ (s.pc : Int) + op < 0 ∧ e = .negativePc ((s.pc : Int) + op) := by
  unfold State.branchNext State.branchTaken at h
  cases hf : s.flags
  · rw [hf] at h
    exact ⟨rfl, pcOfTarget_error h⟩
  · rw [hf] at h
    cases h

/-! The loop check and the commit (40 R58, R71, R73). -/

theorem State.loopCheck_none {s : State} : s.loopCheck = none ↔ s.halted = false ∧ s.pc < s.cfg.memCells := by
  unfold State.loopCheck
  cases s.halted <;> simp

theorem State.conclude_next {s t : State} {r : Except FatalError State} (h : s.conclude r = .next t) :
    (∃ u, r = .ok u ∧ t = u.setCtrl .fetch) ∨ (∃ e, r = .error e ∧ t = s.enterFault e) := by
  cases r with
  | ok u => cases h; exact .inl ⟨u, rfl, rfl⟩
  | error e => cases h; exact .inr ⟨e, rfl, rfl⟩

/-- A meaning always answers a next state. -/
theorem State.conclude_answers (s : State) (r : Except FatalError State) : ∃ t, s.conclude r = .next t := by
  cases r <;> exact ⟨_, rfl⟩

/-! Fetch (40 R59, R72). -/

theorem State.fetchInstr_error {s : State} {e : FatalError} (h : s.fetchInstr = .error e) :
    (lookupOpcode s.opcodeCell = none ∧ e = .opcodeNotFound s.opcodeCell) ∨
      (∃ f, lookupOpcode s.opcodeCell = some (.oi f) ∧ s.cfg.memCells ≤ s.pc + 1 ∧
        e = .memoryAccessOutOfRange ((s.pc : Int) + 1)) := by
  unfold State.fetchInstr at h
  split at h
  · rename_i hl; cases h; exact .inl ⟨hl, rfl⟩
  · cases h
  · rename_i f hl
    cases hr : s.memRead ((s.pc : Int) + 1) with
    | ok w => rw [hr] at h; cases h
    | error e' =>
      rw [hr] at h
      cases h
      obtain ⟨h2, rfl⟩ := State.memRead_error hr
      exact .inr ⟨f, hl, by omega, rfl⟩

theorem State.fetchInstr_ok {s : State} {i : Instr} (h : s.fetchInstr = .ok i) :
    lookupOpcode s.opcodeCell = some (.o i) ∨
      (∃ f, lookupOpcode s.opcodeCell = some (.oi f) ∧ s.pc + 1 < s.cfg.memCells ∧ i = f (s.mem.read (s.pc + 1))) := by
  unfold State.fetchInstr at h
  split at h
  · cases h
  · rename_i j hl; cases h; exact .inl hl
  · rename_i f hl
    cases hr : s.memRead ((s.pc : Int) + 1) with
    | error e => rw [hr] at h; cases h
    | ok w =>
      rw [hr] at h
      cases h
      obtain ⟨-, h2, rfl⟩ := State.memRead_ok hr
      exact .inr ⟨f, hl, by omega, by congr 1⟩

end Sys2Proof.Machine
end

