-- ==== Sys2Proof/Laws/Exec.lean ====
section
/-! SUPPORT. Laws/Exec.lean: what a meaning can do, said once: every meaning concludes, and the five that can fault
either commit one named state or enter one named fault. And what a step can do. -/

namespace Sys2Proof.Machine

/-- Every meaning ends in the commit or the fault entry (40 R71). -/
theorem exec_concludes (i : Instr) (s : State) : ∃ r, exec i s = s.conclude r := by
  cases i <;>
    simp only [exec, execBrk, execLda, execAdc, execSta, execLdx, execInx, execCmy, execBne, execStaX, execDey,
      execLdy, execJsr, execRts] <;>
    exact ⟨_, rfl⟩

/-- Every meaning answers a next state, running again or faulted. -/
theorem exec_ctrl {i : Instr} {s t : State} (h : exec i s = .next t) :
    t.ctrl = .fetch ∨ ∃ e, t = s.enterFault e := by
  obtain ⟨r, hr⟩ := exec_concludes i s
  rcases State.conclude_next (hr ▸ h) with ⟨u, -, rfl⟩ | ⟨e, -, rfl⟩
  · exact .inl rfl
  · exact .inr ⟨e, rfl⟩

/-- A store commits at an address inside memory, or faults with that address (41 R77, R78). -/
theorem store_cases {s t : State} {addr v : Int} {p : Nat}
    (h : s.conclude (s.memWrite addr v >>= fun u => .ok (u.setPc p)) = .next t) :
    (0 ≤ addr ∧ addr < s.cfg.memCells ∧ t = ((s.setMem (s.mem.write addr.toNat v)).setPc p).setCtrl .fetch) ∨
      (¬(0 ≤ addr ∧ addr < s.cfg.memCells) ∧ t = s.enterFault (.memoryAccessOutOfRange addr)) := by
  cases hw : s.memWrite addr v with
  | ok u =>
    obtain ⟨h0, h1, rfl⟩ := State.memWrite_ok hw
    rw [hw] at h
    cases h
    exact .inl ⟨h0, h1, rfl⟩
  | error e =>
    obtain ⟨h0, rfl⟩ := State.memWrite_error hw
    rw [hw] at h
    cases h
    exact .inr ⟨h0, rfl⟩

theorem execSta_cases {op : Int} {s t : State} (h : execSta op s = .next t) :
    (0 ≤ op ∧ op < s.cfg.memCells ∧ t = ((s.setMem (s.mem.write op.toNat s.a)).setPc (s.pc + 2)).setCtrl .fetch) ∨
      (¬(0 ≤ op ∧ op < s.cfg.memCells) ∧ t = s.enterFault (.memoryAccessOutOfRange op)) :=
  store_cases h

theorem execStaX_cases {s t : State} (h : execStaX s = .next t) :
    (0 ≤ s.x ∧ s.x < s.cfg.memCells ∧
        t = ((s.setMem (s.mem.write s.x.toNat s.a)).setPc (s.pc + 1)).setCtrl .fetch) ∨
      (¬(0 ≤ s.x ∧ s.x < s.cfg.memCells) ∧ t = s.enterFault (.memoryAccessOutOfRange s.x)) :=
  store_cases h

theorem execBne_cases {op : Int} {s t : State} (h : execBne op s = .next t) :
    (s.flags = false ∧ 0 ≤ (s.pc : Int) + op ∧ t = (s.setPc ((s.pc : Int) + op).toNat).setCtrl .fetch) ∨
      (s.flags = true ∧ t = (s.setPc (s.pc + 2)).setCtrl .fetch) ∨
      (s.flags = false ∧ (s.pc : Int) + op < 0 ∧ t = s.enterFault (.negativePc ((s.pc : Int) + op))) := by
  unfold execBne at h
  cases hb : s.branchNext op with
  | ok p =>
    rw [hb] at h
    cases h
    rcases State.branchNext_ok hb with ⟨hf, h0, rfl⟩ | ⟨hf, rfl⟩
    · exact .inl ⟨hf, h0, rfl⟩
    · exact .inr (.inl ⟨hf, rfl⟩)
  | error e =>
    rw [hb] at h
    cases h
    obtain ⟨hf, h0, rfl⟩ := State.branchNext_error hb
    exact .inr (.inr ⟨hf, h0, rfl⟩)

theorem execJsr_cases {op : Int} {s t : State} (h : execJsr op s = .next t) :
    (0 < s.sp ∧ s.sp < s.cfg.memCells ∧
        t = (((s.returnCell.1.setMem (s.mem.write s.sp s.returnCell.2)).setSp (s.sp - 1)).setPc
          (callTarget op)).setCtrl .fetch) ∨
      (s.sp = 0 ∧ t = s.enterFault (.stackOverflow 0)) ∨
      (0 < s.sp ∧ s.cfg.memCells ≤ s.sp ∧ t = s.enterFault (.memoryAccessOutOfRange s.sp)) := by
  unfold execJsr at h
  cases hp : s.returnCell.1.push s.returnCell.2 with
  | ok u =>
    rw [hp] at h
    cases h
    obtain ⟨h0, h1, rfl⟩ := State.push_ok hp
    exact .inl ⟨by simpa using h0, by simpa using h1, by simp⟩
  | error e =>
    rw [hp] at h
    cases h
    rcases State.push_error hp with ⟨h0, rfl⟩ | ⟨h0, h1, rfl⟩
    · exact .inr (.inl ⟨by simpa using h0, rfl⟩)
    · exact .inr (.inr ⟨by simpa using h0, by simpa using h1, by simp⟩)

theorem execRts_cases {s t : State} (h : execRts s = .next t) :
    (s.sp + 1 < s.cfg.memCells ∧ 0 ≤ s.mem.read (s.sp + 1) ∧
        t = ((s.setSp (s.sp + 1)).setPc (s.mem.read (s.sp + 1)).toNat).setCtrl .fetch) ∨
      (s.cfg.memCells ≤ s.sp + 1 ∧ t = s.enterFault (.memoryAccessOutOfRange ((s.sp : Int) + 1))) ∨
      (s.sp + 1 < s.cfg.memCells ∧ s.mem.read (s.sp + 1) < 0 ∧
        t = s.enterFault (.negativePc (s.mem.read (s.sp + 1)))) := by
  unfold execRts at h
  cases hp : s.pop with
  | error e =>
    rw [hp] at h
    cases h
    obtain ⟨h0, rfl⟩ := State.pop_error hp
    exact .inr (.inl ⟨h0, rfl⟩)
  | ok r =>
    obtain ⟨u, v⟩ := r
    obtain ⟨h0, rfl, rfl⟩ := State.pop_ok hp
    rw [hp] at h
    change s.conclude (pcOfTarget (s.mem.read (s.sp + 1)) >>= fun p => .ok ((s.setSp (s.sp + 1)).setPc p)) = .next t at h
    cases ht : pcOfTarget (s.mem.read (s.sp + 1)) with
    | ok p =>
      rw [ht] at h
      cases h
      obtain ⟨h1, rfl⟩ := pcOfTarget_ok ht
      exact .inl ⟨h0, h1, rfl⟩
    | error e =>
      rw [ht] at h
      cases h
      obtain ⟨h1, rfl⟩ := pcOfTarget_error ht
      exact .inr (.inr ⟨h0, h1, rfl⟩)

/-- What a step of a running core can do: stop at the loop check, fault in fetch, or run the fetched instruction. -/
theorem step_cases {s : State} (h : s.ctrl.running = true) :
    (∃ c, s.loopCheck = some c ∧ step s = .next (s.setCtrl c)) ∨
      (s.loopCheck = none ∧ ∃ e, s.fetchInstr = .error e ∧ step s = .next (s.enterFault e)) ∨
      (s.loopCheck = none ∧ ∃ i, s.fetchInstr = .ok i ∧ step s = exec i s) := by
  unfold step
  rw [if_pos h]
  cases s.loopCheck with
  | some c => simp
  | none => cases s.fetchInstr <;> simp

/-- A core that does not run stays as it is. -/
theorem step_of_not_running {s : State} (h : s.ctrl.running = false) : step s = .next s := by
  unfold step
  rw [if_neg (by simp [h])]

end Sys2Proof.Machine
end

