-- ==== Sys2Proof/Laws/PerInstr.lean ====
section
/-! SUPPORT. Laws/PerInstr.lean: statements about every instruction as syntax, one lemma a constructor. -/

namespace Sys2Proof.Laws.EncodeFits

/-- On a machine with W >= 32, every cell of a well-formed instruction holds a W-bit value, and there are one or two
of them (30 R47, 00 R6). -/
def Statement (i : Instr) : Prop :=
  ∀ W, 32 ≤ W → i.wellFormed W = true →
    (∀ v ∈ encode i, FitsCell W v) ∧ 1 ≤ (encode i).length ∧ (encode i).length ≤ 2

/-- Every opcode value is one of 0 to 12 (30 R51). -/
theorem opcode_range (i : Instr) : 0 ≤ i.opcode ∧ i.opcode ≤ 12 := by
  cases i <;> simp [Instr.opcode]

/-- An opcode value fits every legal cell width. -/
theorem opcode_fits {W : Nat} (hW : 32 ≤ W) (i : Instr) : FitsCell W i.opcode := by
  have h := opcode_range i
  have hp : 2 ^ 31 ≤ 2 ^ (W - 1) := Nat.pow_le_pow_right (by omega) (by omega)
  unfold FitsCell
  omega

/-- The shape of format O. -/
theorem of_opcode {i : Instr} (ho : i.operand = none) : Statement i := by
  intro W hW _
  simp only [encode, ho]
  exact ⟨by simpa using opcode_fits hW i, by simp, by simp⟩

/-- The shape of format OI. -/
theorem of_operand {i : Instr} {op : Int} (ho : i.operand = some op)
    (hf : ∀ W, i.wellFormed W = true → FitsCell W op) : Statement i := by
  intro W hW hw
  simp only [encode, ho]
  refine ⟨fun v hv => ?_, by simp, by simp⟩
  simp only [Option.toList_some, List.mem_cons, List.not_mem_nil, or_false] at hv
  rcases hv with rfl | rfl
  · exact opcode_fits hW i
  · exact hf W hw

theorem brk : Statement .brk := of_opcode rfl
theorem lda (op : Int) : Statement (.lda op) := of_operand rfl fun _ h => of_decide_eq_true h
theorem adc (op : Int) : Statement (.adc op) := of_operand rfl fun _ h => of_decide_eq_true h
theorem sta (op : Int) : Statement (.sta op) := of_operand rfl fun _ h => of_decide_eq_true h
theorem ldx (op : Int) : Statement (.ldx op) := of_operand rfl fun _ h => of_decide_eq_true h
theorem inx : Statement .inx := of_opcode rfl
theorem cmy (op : Int) : Statement (.cmy op) := of_operand rfl fun _ h => of_decide_eq_true h
theorem bne (op : Int) : Statement (.bne op) := of_operand rfl fun _ h => of_decide_eq_true h
theorem staX : Statement .staX := of_opcode rfl
theorem dey : Statement .dey := of_opcode rfl
theorem ldy (op : Int) : Statement (.ldy op) := of_operand rfl fun _ h => of_decide_eq_true h
theorem jsr (op : Int) : Statement (.jsr op) := of_operand rfl fun _ h => of_decide_eq_true h
theorem rts : Statement .rts := of_opcode rfl

end Sys2Proof.Laws.EncodeFits
end

