-- ==== Sys2Proof/Laws/Step.lean ====
section
/-! SUPPORT. Laws/Step.lean: the opcode table as a case list, what a step does at each kind of opcode cell, and that
memory within its bounds stays so. -/

namespace Sys2Proof

/-- What the opcode table holds, row by row (30 R51). -/
theorem lookupOpcode_cases {v : Int} {f : Format} (h : lookupOpcode v = some f) :
    (v = 0 ∧ f = .o .brk) ∨ (v = 1 ∧ f = .oi .lda) ∨ (v = 2 ∧ f = .oi .adc) ∨ (v = 3 ∧ f = .oi .sta) ∨
    (v = 4 ∧ f = .oi .ldx) ∨ (v = 5 ∧ f = .o .inx) ∨ (v = 6 ∧ f = .oi .cmy) ∨ (v = 7 ∧ f = .oi .bne) ∨
    (v = 8 ∧ f = .o .staX) ∨ (v = 9 ∧ f = .o .dey) ∨ (v = 10 ∧ f = .oi .ldy) ∨ (v = 11 ∧ f = .oi .jsr) ∨
    (v = 12 ∧ f = .o .rts) := by
  obtain ⟨r, hr, rfl, rfl⟩ := lookupOpcode_some h
  simp only [opcodeTable, List.mem_cons, List.not_mem_nil, or_false] at hr
  rcases hr with rfl | rfl | rfl | rfl | rfl | rfl | rfl | rfl | rfl | rfl | rfl | rfl | rfl <;> simp

/-- A cell that fits W bits is the cell of its own pattern. -/
theorem cellOfBits_bitsOfCell {W : Nat} (hW : 1 ≤ W) {v : Int} (h : FitsCell W v) :
    cellOfBits W (bitsOfCell W v) = v := by
  have hp : (0 : Int) < ((2 ^ W : Nat) : Int) := by positivity
  have hw := wrap_of_fits hW h
  unfold cellOfBits bitsOfCell wrap at *
  rw [Int.toNat_of_nonneg (Int.emod_nonneg _ hp.ne'), Int.emod_bmod]
  exact hw

theorem fitsCell_zero (W : Nat) : FitsCell W 0 := by
  have hp : 0 < 2 ^ (W - 1) := by positivity
  unfold FitsCell
  omega

theorem fitsInfo_zero (W : Nat) : FitsInfo W 0 := by
  have hp : 0 < 2 ^ W := by positivity
  unfold FitsInfo
  omega

namespace Machine

theorem State.At.loopCheck {s : State} {v : Int} (h : s.At v) : s.loopCheck = none :=
  State.loopCheck_none.mpr ⟨h.2.1, h.2.2.1⟩

/-- At a one-cell opcode a step runs its instruction. -/
theorem step_at_one_cell {s : State} {v : Int} {i : Instr} (hl : lookupOpcode v = some (.o i)) (h : s.At v) :
    step s = exec i s := by
  have hf : s.fetchInstr = .ok i := by
    unfold State.fetchInstr State.opcodeCell
    rw [h.2.2.2, hl]
  unfold step
  rw [if_pos h.1, h.loopCheck, hf]

/-- At a two-cell opcode with its operand cell inside memory a step runs its instruction with that operand. -/
theorem step_at_two_cells {s : State} {v : Int} {f : Int → Instr} (hl : lookupOpcode v = some (.oi f)) (h : s.At v)
    (hp : s.pc + 1 < s.cfg.memCells) : step s = exec (f (s.mem.read (s.pc + 1))) s := by
  have hf : s.fetchInstr = .ok (f (s.mem.read (s.pc + 1))) := by
    unfold State.fetchInstr State.opcodeCell
    rw [h.2.2.2, hl]
    simp only [State.memRead]
    rw [if_pos (by omega)]
    rfl
  unfold step
  rw [if_pos h.1, h.loopCheck, hf]

/-- At a two-cell opcode in the last cell a step enters the operand fetch's fault (40 R72). -/
theorem step_at_missing_operand {s : State} {v : Int} {f : Int → Instr} (hl : lookupOpcode v = some (.oi f))
    (h : s.At v) (hp : s.cfg.memCells ≤ s.pc + 1) :
    step s = .next (s.enterFault (.memoryAccessOutOfRange ((s.pc : Int) + 1))) := by
  have hf : s.fetchInstr = .error (.memoryAccessOutOfRange ((s.pc : Int) + 1)) := by
    unfold State.fetchInstr State.opcodeCell
    rw [h.2.2.2, hl]
    simp only [State.memRead]
    rw [if_neg (by omega)]
    rfl
  unfold step
  rw [if_pos h.1, h.loopCheck, hf]

/-- At a value that is no opcode a step enters the decoder's fault (40 R64). -/
theorem step_at_no_opcode {s : State} {v : Int} (hl : lookupOpcode v = none) (h : s.At v) :
    step s = .next (s.enterFault (.opcodeNotFound v)) := by
  have hf : s.fetchInstr = .error (.opcodeNotFound v) := by
    unfold State.fetchInstr State.opcodeCell
    rw [h.2.2.2, hl]
  unfold step
  rw [if_pos h.1, h.loopCheck, hf]

/-- Every cell of a memory within its bounds holds a W-bit value, the unlisted ones too. -/
theorem Memory.Fits.read {c : Config} {m : Memory} (h : m.Fits c) (k : Nat) : FitsCell c.wordBits (m.read k) := by
  obtain ⟨-, h⟩ := h
  induction m with
  | nil => exact fitsCell_zero _
  | cons e m ih =>
    obtain ⟨j, v⟩ := e
    rw [Memory.read_cons]
    split
    · exact (h (j, v) (by simp)).2
    · exact ih fun e he => h e (by simp [he])

theorem Memory.Fits.write {c : Config} {m : Memory} (h : m.Fits c) {k : Nat} {v : Int} (hk : k < c.memCells)
    (hv : FitsCell c.wordBits v) : (m.write k v).Fits c := by
  refine ⟨Memory.write_wf h.1 _ _, fun e he => ?_⟩
  rcases Memory.mem_write he with rfl | he
  · exact ⟨hk, hv⟩
  · exact h.2 e he

theorem Memory.Fits.writeAll {c : Config} {m : Memory} (h : m.Fits c) {vs : List Int} (hl : vs.length ≤ c.memCells)
    (hv : ∀ v ∈ vs, FitsCell c.wordBits v) : (m.writeAll 0 vs).Fits c := by
  refine ⟨Memory.writeAll_wf h.1 _ _, fun e he => ?_⟩
  rcases Memory.mem_writeAll he with ⟨-, h2, h3⟩ | he
  · exact ⟨by omega, hv _ h3⟩
  · exact h.2 e he

/-- What LOAD can do, if it answers (70 R108, R111). -/
theorem State.hostLoad_cases {s t : State} {prog : List Int} {r : LoadResult}
    (h : s.hostLoad prog = .next (t, r)) :
    t = s ∨ ((∀ v ∈ prog, FitsCell s.cfg.wordBits v) ∧ prog.length ≤ s.cfg.memCells ∧ s.ctrl.running = false ∧
      t = s.setMem (s.mem.writeAll 0 prog)) := by
  unfold State.hostLoad at h
  split at h
  · cases h; exact .inl rfl
  · rename_i hr
    split at h
    · rename_i hf
      split at h
      · cases h; exact .inl rfl
      · rename_i hl
        cases h
        exact .inr ⟨fun v hv => of_decide_eq_true (List.all_eq_true.mp hf v hv), by omega, by simpa using hr, rfl⟩
    · cases h

end Machine

end Sys2Proof
end

