-- ==== Sys2Proof/Tests/Slice0.lean ====
section
/-! SUPPORT. Tests/Slice0.lean: the model's own tests. Expected values come from the spec's vectors (95_test_vectors.md,
named by their ids) and its opcode map (30 R51). The witnesses at the end show states that meet the hypotheses of the
statements of Certificates/Slice0/Obligations.lean. -/

namespace Sys2Proof.Machine.Tests

/-- 95, Conventions: the start state of a vector with W = 32 and N = n: reset, the cells loaded from cell 0 on, running. -/
def start (n : Nat) (cells : List Int) : State :=
  { State.resetOf ⟨32, n⟩ with mem := Memory.writeAll [] 0 cells, ctrl := .fetch }

/-- The state a result holds, if it is a next state. -/
def after : Result → Option State
  | .next t => some t
  | .fault _ => none
  | .refused _ => none

/-! ## WellFormed and Config: an ill-formed term for each check -/

theorem test_wellFormed_refuses_wide_lda : Instr.wellFormed 32 (.lda 2147483648) = false := by decide
theorem test_wellFormed_refuses_wide_adc : Instr.wellFormed 32 (.adc (-2147483649)) = false := by decide
theorem test_wellFormed_refuses_wide_sta : Instr.wellFormed 32 (.sta 4294967295) = false := by decide
theorem test_wellFormed_refuses_wide_ldx : Instr.wellFormed 32 (.ldx 2147483648) = false := by decide
theorem test_wellFormed_refuses_wide_cmy : Instr.wellFormed 32 (.cmy 2147483648) = false := by decide
theorem test_wellFormed_refuses_wide_bne : Instr.wellFormed 32 (.bne (-2147483649)) = false := by decide
theorem test_wellFormed_refuses_wide_ldy : Instr.wellFormed 32 (.ldy 2147483648) = false := by decide
theorem test_wellFormed_refuses_wide_jsr : Instr.wellFormed 32 (.jsr 2147483648) = false := by decide
theorem test_wellFormed_accepts_the_ends :
    Instr.wellFormed 32 (.lda (-2147483648)) = true ∧ Instr.wellFormed 32 (.lda 2147483647) = true := by decide
theorem test_config_refuses : ¬Config.Valid ⟨31, 16⟩ ∧ ¬Config.Valid ⟨32, 0⟩ ∧ ¬Config.Valid ⟨32, 2147483649⟩ := by decide
theorem test_config_accepts_the_ends : Config.Valid ⟨32, 1⟩ ∧ Config.Valid ⟨32, 2147483648⟩ ∧ Config.Valid ⟨64, 1⟩ := by decide

/-! ## Decoding: a word written out for every row (30 R51; the operand cell is bits 63..32) -/

theorem test_decode_brk : decodeTableWord 32 0x00000000 = some .brk := by decide
theorem test_decode_lda : decodeTableWord 64 0x0000006400000001 = some (.lda 100) := by decide
theorem test_decode_adc : decodeTableWord 64 0x0000000700000002 = some (.adc 7) := by decide
theorem test_decode_sta : decodeTableWord 64 0x0000000F00000003 = some (.sta 15) := by decide
theorem test_decode_ldx : decodeTableWord 64 0x0000001400000004 = some (.ldx 20) := by decide
theorem test_decode_inx : decodeTableWord 32 0x00000005 = some .inx := by decide
theorem test_decode_cmy : decodeTableWord 64 0xFFFFFFFF00000006 = some (.cmy (-1)) := by decide
theorem test_decode_bne : decodeTableWord 64 0xFFFFFFFD00000007 = some (.bne (-3)) := by decide
theorem test_decode_staX : decodeTableWord 32 0x00000008 = some .staX := by decide
theorem test_decode_dey : decodeTableWord 32 0x00000009 = some .dey := by decide
theorem test_decode_ldy : decodeTableWord 64 0x800000000000000A = some (.ldy (-2147483648)) := by decide
theorem test_decode_jsr : decodeTableWord 64 0x000000080000000B = some (.jsr 8) := by decide
theorem test_decode_rts : decodeTableWord 32 0x0000000C = some .rts := by decide
theorem test_decode_short_word_has_a_zero_operand : decodeTableWord 32 0x00000001 = some (.lda 0) := by decide
/-- DC1 to DC4 and 30 R50's examples. -/
theorem test_decode_refuses : decodeTableWord 32 13 = none ∧ decodeTableWord 32 0xFFFFFFFF = none ∧
    decodeTableWord 32 257 = none ∧ decodeTableWord 32 0x80000000 = none := by decide
/-- P2's cells. -/
theorem test_encode_p2 :
    ([.ldy 3, .dey, .cmy 0, .bne (-3), .brk] : List Instr).flatMap encode = [10, 3, 9, 6, 0, 7, -3, 0] := by decide

/-! ## Single steps from the spec's vectors -/

/-- DT2. -/
theorem test_lda_negative : after (step (start 8 [1, -1])) =
    some { start 8 [1, -1] with a := -1, pc := 2 } := by decide
/-- DT4. -/
theorem test_lda_operand_fetch_faults : after (step { start 8 [0, 0, 0, 0, 0, 0, 0, 1] with pc := 7 }) =
    some { start 8 [0, 0, 0, 0, 0, 0, 0, 1] with
      pc := 7, ctrl := .faulted, faultCode := .memoryAccessOutOfRange, faultInfo := 8 } := by decide
/-- DT5. -/
theorem test_ldx_unchecked : after (step (start 8 [4, 20])) = some { start 8 [4, 20] with x := 20, pc := 2 } := by decide
/-- DT6. -/
theorem test_ldy_keeps_flags : after (step (start 8 [10, 3])) = some { start 8 [10, 3] with y := 3, pc := 2 } := by decide
/-- DT16. -/
theorem test_sta_own_operand : after (step { start 16 [3, 1] with a := 6 }) =
    some { start 16 [3, 6] with a := 6, pc := 2 } := by decide
/-- DT8. -/
theorem test_sta_out_of_range : after (step { start 16 [3, 16] with a := 5 }) =
    some { start 16 [3, 16] with
      a := 5, ctrl := .faulted, faultCode := .memoryAccessOutOfRange, faultInfo := 16 } := by decide
/-- DT12. -/
theorem test_staX : after (step { start 32 [0, 0, 0, 0, 0, 0, 8] with pc := 6, a := 5, x := 20 }) =
    some { start 32 [0, 0, 0, 0, 0, 0, 8] with
      pc := 7, a := 5, x := 20, mem := [(6, 8), (20, 5)] } := by decide
/-- DT15. -/
theorem test_staX_at_the_last_cell : after (step { start 8 [0, 0, 0, 0, 0, 0, 0, 8] with pc := 7, a := 5 }) =
    some { start 8 [0, 0, 0, 0, 0, 0, 0, 8] with pc := 8, a := 5, mem := [(0, 5), (7, 8)] } := by decide
/-- AL2. -/
theorem test_adc_wraps : after (step { start 8 [2, 1] with a := 2147483647 }) =
    some { start 8 [2, 1] with a := -2147483648, pc := 2 } := by decide
/-- 95 L2.3: W = 64 does not wrap where W = 32 does. -/
theorem test_add_at_64 : aluAdd 64 9223372036854775807 1 = -9223372036854775808 ∧
    aluAdd 64 2147483647 1 = 2147483648 := by decide
/-- AL8. -/
theorem test_inx_from_minus_one : after (step { start 8 [5] with x := -1 }) =
    some { start 8 [5] with x := 0, pc := 1 } := by decide
/-- AL11. -/
theorem test_dey_wraps : after (step { start 8 [9] with y := -2147483648 }) =
    some { start 8 [9] with y := 2147483647, pc := 1 } := by decide
/-- AL13. -/
theorem test_cmy_clears : after (step { start 8 [6, 5] with y := 4, flags := true }) =
    some { start 8 [6, 5] with y := 4, flags := false, pc := 2 } := by decide
/-- AL14. -/
theorem test_cmy_negative : after (step { start 8 [6, -1] with y := -1 }) =
    some { start 8 [6, -1] with y := -1, flags := true, pc := 2 } := by decide
/-- CT2, both loop checks of it: HALTED, not OUT_OF_BOUNDS. -/
theorem test_brk_at_the_last_cell : after (steps 2 { start 8 [] with pc := 7 }) =
    some { start 8 [] with pc := 8, halted := true, ctrl := .halted } := by decide
/-- CT3. -/
theorem test_bne_backward : after (step { start 16 [0, 0, 0, 0, 0, 7, -3] with pc := 5 }) =
    some { start 16 [0, 0, 0, 0, 0, 7, -3] with pc := 2 } := by decide
/-- CT6. -/
theorem test_bne_negative_target : after (step { start 16 [0, 0, 7, -3] with pc := 2 }) =
    some { start 16 [0, 0, 7, -3] with pc := 2, ctrl := .faulted, faultCode := .negativePc, faultInfo := -1 } := by decide
/-- CT10. -/
theorem test_jsr : after (step { start 32 [0, 0, 11, 8] with pc := 2 }) =
    some { start 32 [0, 0, 11, 8] with mem := [(2, 11), (3, 8), (31, 4)], sp := 30, pc := 7 } := by decide
/-- CT14. -/
theorem test_jsr_stack_overflow : after (step { start 8 [11, 4] with sp := 0 }) =
    some { start 8 [11, 4] with sp := 0, ctrl := .faulted, faultCode := .stackOverflow, faultInfo := 0 } := by decide
/-- CT17. -/
theorem test_rts_empty_stack : after (step (start 8 [12])) =
    some { start 8 [12] with ctrl := .faulted, faultCode := .memoryAccessOutOfRange, faultInfo := 8 } := by decide
/-- CT19. -/
theorem test_rts_beyond_memory : after (step { start 8 [12, 0, 0, 0, 0, 0, 0, 100] with sp := 6 }) =
    some { start 8 [12, 0, 0, 0, 0, 0, 0, 100] with sp := 7, pc := 100 } := by decide
/-- DC3. -/
theorem test_illegal_opcode_is_not_truncated : after (step (start 8 [257])) =
    some { start 8 [257] with ctrl := .faulted, faultCode := .opcodeNotFound, faultInfo := 257 } := by decide
/-- DC5 and DC6. -/
theorem test_loop_check : after (step { start 8 [] with pc := 8 }) = some { start 8 [] with pc := 8, ctrl := .outOfBounds } ∧
    after (step { start 8 [] with pc := 9, halted := true }) =
      some { start 8 [] with pc := 9, halted := true, ctrl := .halted } := by decide
/-- 10 R25 and R26, 60 R91: the encodings the host reads. -/
theorem test_status_codes :
    [CtrlState.idle, .fetch, .decode, .operand, .execute, .halted, .outOfBounds, .faulted].map CtrlState.code =
      [0, 1, 2, 3, 4, 5, 6, 7] ∧
    [FaultCode.none, .opcodeNotFound, .memoryAccessOutOfRange, .stackOverflow, .negativePc].map FaultCode.number =
      [0, 1, 2, 3, 4] := by decide
/-- L1.3 and HT8. -/
theorem test_load_too_long_and_inspect :
    (State.resetOf ⟨32, 4⟩).hostLoad [1, 2, 3, 4, 5] = .next (State.resetOf ⟨32, 4⟩, .programExceedsMemory) ∧
    (State.resetOf ⟨32, 8⟩).inspect (.register 3) = .value 0 := ⟨rfl, rfl⟩
/-- The FSM on CT10: FETCH, DECODE, OPERAND, EXECUTE, then FETCH of the next instruction, from any latches (40 R62). -/
theorem test_fsm_jsr : (FsmState.phases 4 ⟨{ start 32 [0, 0, 11, 8] with pc := 2 }, 77, -5⟩).arch =
    { start 32 [0, 0, 11, 8] with mem := [(2, 11), (3, 8), (31, 4)], sp := 30, pc := 7 } := by decide
/-- The host's table words run from reset (log entry 7): LDA 0, RTS on the empty stack, and an illegal word. -/
theorem test_fetch_word_runs :
    (after (step (State.reset.withFetchWord 32 1))).map (fun s => (s.pc, s.ctrl)) = some (2, .fetch) ∧
    (after (step (State.reset.withFetchWord 32 12))).map (fun s => (s.pc, s.faultInfo)) = some (0, 65536) ∧
    (after (step (State.reset.withFetchWord 32 13))).map (fun s => (s.pc, s.faultCode)) = some (0, .opcodeNotFound) := by decide

/-! ## Witnesses: states and operands that meet the hypotheses of the statements, clause by clause -/

theorem witness_reset_inv : State.reset.Inv :=
  ⟨by decide, by decide, by decide, by decide, by decide, by decide, by decide, by decide, by decide, ⟨rfl, rfl, rfl⟩⟩

/-- A running state that meets the invariant stands at opcode 1 (CommittedPcFitsItsRegister, EveryStepKeepsTheInvariant). -/
theorem witness_running_inv : (start 8 [1, -1]).Inv ∧ (start 8 [1, -1]).At 1 :=
  ⟨⟨by decide, by decide, by decide, by decide, by decide, by decide, by decide, by decide, by decide, rfl⟩, by decide⟩

theorem witness_encode : 32 ≤ 32 ∧ Instr.wellFormed 32 (.bne (-2147483648)) = true ∧ Instr.wellFormed 32 .rts = true := by
  decide

theorem witness_decode : decode [7, -3, 0] = .ok (.bne (-3), [0]) ∧ decode [5] = .ok (.inx, []) := ⟨rfl, rfl⟩

theorem witness_illegal_at : (start 8 [13]).At 13 ∧ (start 8 [-1]).At (-1) := by decide

theorem witness_step_decodes : (start 2 [1, 5]).ctrl.running = true ∧ (start 2 [1, 5]).halted = false ∧
    (start 2 [1, 5]).pc < (start 2 [1, 5]).cfg.memCells ∧ decode (start 2 [1, 5]).fetchCells = .ok (.lda 5, []) :=
  ⟨rfl, rfl, by decide, rfl⟩

/-- The loop check's clauses: halted, pc = N, a running opcode, and the idle and terminal states. -/
theorem witness_loop_clauses :
    ({ start 8 [] with halted := true }).ctrl.running = true ∧
    (({ start 8 [] with pc := 8 }).ctrl.running = true ∧ ({ start 8 [] with pc := 8 }).halted = false ∧
      ({ start 8 [] with pc := 8 }).cfg.memCells ≤ ({ start 8 [] with pc := 8 }).pc) ∧
    (start 1 [0]).At 0 ∧ State.reset.ctrl = .idle ∧ ({ start 8 [] with ctrl := .halted }).ctrl.terminal = true := by
  decide

/-- Every two-cell opcode, with its operand cell the last cell of memory and just outside it. -/
theorem witness_two_cell_opcodes : ∀ v ∈ ([1, 2, 3, 4, 6, 7, 10, 11] : List Int),
    ((start 2 [v]).At v ∧ (start 2 [v]).pc + 1 < (start 2 [v]).cfg.memCells) ∧
    ((start 1 [v]).At v ∧ (start 1 [v]).pc + 1 = (start 1 [v]).cfg.memCells) := by decide

/-- Every one-cell opcode at the last cell of memory. -/
theorem witness_one_cell_opcodes : ∀ v ∈ ([0, 5, 8, 9, 12] : List Int), (start 1 [v]).At v := by decide

/-- STA and STA_X: cells 0 and N-1 are in range, -1 and N are not. -/
theorem witness_store_bounds :
    (0 ≤ (0 : Int) ∧ (0 : Int) < (start 8 []).cfg.memCells) ∧ (0 ≤ (7 : Int) ∧ (7 : Int) < (start 8 []).cfg.memCells) ∧
    (-1 < (0 : Int)) ∧ ((start 8 []).cfg.memCells : Int) ≤ 8 ∧ (start 8 []).mem.wf ∧
    ({ start 8 [] with x := -1 }).x < 0 ∧ ((start 8 []).cfg.memCells : Int) ≤ ({ start 8 [] with x := 8 }).x := by decide

/-- BNE: target 0 is taken and target -1 faults; flags true falls through. -/
theorem witness_bne_clauses :
    (({ start 8 [] with pc := 3 }).flags = false ∧ (0 : Int) ≤ (({ start 8 [] with pc := 3 }).pc : Int) + -3) ∧
    ((({ start 8 [] with pc := 3 }).pc : Int) + -4 < 0) ∧ ({ start 8 [] with flags := true }).flags = true := by decide

/-- JSR: sp = 1 pushes, sp = 0 overflows, and p + 2 is the largest cell value or one more. -/
theorem witness_jsr_clauses :
    (0 < ({ start 8 [] with sp := 1 }).sp ∧ ({ start 8 [] with sp := 1 }).sp < 8 ∧ FitsCell 32 (2147483645 + 2)) ∧
    ({ start 8 [] with sp := 0 }).sp = 0 ∧
    (1 ≤ (start 2147483648 []).cfg.wordBits ∧ 0 < (start 2147483648 []).sp ∧
      (start 2147483648 []).sp < (start 2147483648 []).cfg.memCells ∧
      ¬FitsCell 32 ((({ start 2147483648 [] with pc := 2147483646 }).pc : Int) + 2)) := by decide

/-- RTS: a popped 0, the empty stack, and a popped -1. -/
theorem witness_rts_clauses :
    (({ start 8 [12] with sp := 6 }).sp + 1 < 8 ∧ 0 ≤ ({ start 8 [12] with sp := 6 }).mem.read 7) ∧
    (start 8 [12]).sp + 1 = (start 8 [12]).cfg.memCells ∧
    ({ start 8 [12, 0, 0, 0, 0, 0, 0, -1] with sp := 6 }).mem.read 7 < 0 := by decide

/-- The round trip: P4's JSR at 2 in N = 32, and the RTS at 9 reached with the return cell intact. -/
theorem witness_round_trip :
    let s := { start 32 [0, 0, 11, 8] with pc := 2 }
    let u := { start 32 [0, 0, 11, 8, 0, 0, 0, 0, 0, 12] with
      pc := 9, sp := 30, mem := [(2, 11), (3, 8), (9, 12), (31, 4)] }
    (s.At 11 ∧ 1 ≤ s.sp ∧ s.sp < s.cfg.memCells ∧ s.mem.wf ∧ FitsCell s.cfg.wordBits ((s.pc : Int) + 2)) ∧
    (after (step s)).map (fun t => t.ctrl) = some .fetch ∧
    (u.cfg = s.cfg ∧ u.At 12 ∧ u.sp = s.sp - 1 ∧ u.mem.read s.sp = (s.pc : Int) + 2) :=
  ⟨by decide, by decide, by decide⟩

theorem witness_branch_to_itself : (start 2 [7]).At 7 ∧ (start 2 [7]).pc + 1 < (start 2 [7]).cfg.memCells ∧
    (start 2 [7]).mem.read ((start 2 [7]).pc + 1) = 0 ∧ (start 2 [7]).flags = false := by decide

/-- A flags change (AL12), and a step at an opcode that is not BNE. -/
theorem witness_flags : (after (step (start 8 [6, 0]))).map (fun t => t.flags) = some true ∧
    (start 8 [6, 0]).flags = false ∧ (start 8 [6, 0]).opcodeCell ≠ 7 := by decide

/-- A running step that faults, with sp inside memory: one for each fault code. -/
theorem witness_faults :
    (start 8 [13]).sp < 8 ∧
    (after (step (start 8 [13]))).map (fun t => (t.ctrl, t.faultCode)) = some (.faulted, .opcodeNotFound) ∧
    (after (step (start 1 [7]))).map (fun t => (t.ctrl, t.faultCode)) = some (.faulted, .memoryAccessOutOfRange) ∧
    (after (step { start 8 [11] with sp := 0 })).map (fun t => (t.ctrl, t.faultCode)) = some (.faulted, .stackOverflow) ∧
    (after (step (start 8 [7, -1]))).map (fun t => (t.ctrl, t.faultCode)) = some (.faulted, .negativePc) := by decide

/-- P5: STA overwrites the opcode the next fetch reads; P7's third step: JSR overwrites the operand it reads next. -/
theorem witness_store_then_fetch :
    ((start 8 [3, 2, 4, 9]).At 3 ∧
      (after (step (start 8 [3, 2, 4, 9]))).map (fun t => (t.pc, t.ctrl)) = some (2, .fetch)) ∧
    (({ start 4 [11, 1] with sp := 1 }).At 11 ∧ FitsCell 32 ((({ start 4 [11, 1] with sp := 1 }).pc : Int) + 2) ∧
      (after (step { start 4 [11, 1] with sp := 1 })).map (fun t => (t.pc + 1, t.ctrl)) = some (1, .fetch)) ∧
    (({ start 4 [8] with x := 1 }).At 8 ∧
      (after (step { start 4 [8] with x := 1 })).map (fun t => (t.pc, t.ctrl)) = some (1, .fetch)) := by decide

/-- LOAD: a program that fills memory, one longer by a cell, and a value too wide; and a core that runs. -/
theorem witness_load :
    (State.resetOf ⟨32, 2⟩).ctrl.running = false ∧ (∀ v ∈ ([1, -2147483648] : List Int), FitsCell 32 v) ∧
    ([1, -2147483648] : List Int).length ≤ (State.resetOf ⟨32, 2⟩).cfg.memCells ∧ (State.resetOf ⟨32, 2⟩).mem.wf ∧
    (State.resetOf ⟨32, 2⟩).cfg.memCells < ([1, 2, 3] : List Int).length ∧
    (∃ v ∈ ([1, 2147483648] : List Int), ¬FitsCell 32 v) ∧ (start 2 []).ctrl.running = true := by decide

/-- The reachable states hold a run: construction, LOAD, RUN, and one step of the program. -/
theorem witness_reachable : Config.Valid ⟨32, 8⟩ ∧ Reachable ⟨32, 8⟩ { start 8 [1, -1] with a := -1, pc := 2 } := by
  refine ⟨by decide, .step (start 8 [1, -1]) _ ?_ rfl⟩
  exact .run { State.resetOf ⟨32, 8⟩ with mem := Memory.writeAll [] 0 [1, -1] }
    (.load _ _ [1, -1] .ok .construction rfl)

/-- FSM states whose latches are consistent, in every running phase. -/
theorem witness_fsm :
    FsmState.Consistent ⟨start 8 [1, -1], 5, 5⟩ ∧
    FsmState.Consistent ⟨{ start 8 [1, -1] with ctrl := .decode }, 1, 5⟩ ∧
    FsmState.Consistent ⟨{ start 8 [1, -1] with ctrl := .operand }, 1, 5⟩ ∧
    FsmState.Consistent ⟨{ start 8 [1, -1] with ctrl := .execute }, 1, -1⟩ :=
  ⟨trivial, ⟨by decide, by decide⟩, ⟨by decide, by decide, _, rfl, rfl⟩,
    ⟨by decide, by decide, _, rfl, fun _ => by decide⟩⟩

end Sys2Proof.Machine.Tests
end

/-! ## Every step keeps the invariant: one rule per update of the state, then the meanings, then the step -/

section
namespace Sys2Proof

/-! ### Which values fit, under legal parameters (00 R6, R7) -/

/-- Every pc up to the SEQ2 successor of the last cell fits its register (40 R65). -/
theorem Config.Valid.fitsIndex {c : Config} (hc : c.Valid) {n : Nat} (hn : n ≤ c.memCells + 1) :
    FitsIndex c.wordBits n := by
  obtain ⟨hW, -, hN⟩ := hc
  have h2 := two_pow_eq_double (W := c.wordBits) (by omega)
  have hp : 2 ^ 1 ≤ 2 ^ (c.wordBits - 1) := Nat.pow_le_pow_right (by omega) (by omega)
  unfold FitsIndex
  omega

/-- Every cell index, and the first one past memory, fits fault_info (60 R93). -/
theorem Config.Valid.fitsInfo_index {c : Config} (hc : c.Valid) {n : Nat} (hn : n ≤ c.memCells) :
    FitsInfo c.wordBits (n : Int) := by
  have h := hc.fitsIndex (n := n) (by omega)
  unfold FitsIndex at h
  unfold FitsInfo
  omega

/-- A relative target taken from a cell inside memory has at most one bit more than a cell, so it fits fault_info (60
R95). -/
theorem Config.Valid.fitsInfo_relativeTarget {c : Config} (hc : c.Valid) {p : Nat} {op : Int} (hp : p < c.memCells)
    (hop : FitsCell c.wordBits op) : FitsInfo c.wordBits ((p : Int) + op) := by
  obtain ⟨hW, -, hN⟩ := hc
  have h2 := two_pow_eq_double (W := c.wordBits) (by omega)
  unfold FitsCell at hop
  unfold FitsInfo
  omega

/-- A target no wider than fault_info, taken as a pc, fits its register (40 R65). -/
theorem fitsIndex_toNat {W : Nat} {v : Int} (hv : FitsInfo W v) : FitsIndex W v.toNat := by
  have hp : 0 < 2 ^ W := by positivity
  unfold FitsInfo at hv
  unfold FitsIndex
  omega

/-- What a row of the opcode table builds from an operand cell that fits W bits is well formed (30 R49, R52). -/
def Format.BuildsWellFormed (W : Nat) : Format → Prop
  | .o i => i.wellFormed W = true
  | .oi mk => ∀ op, FitsCell W op → (mk op).wellFormed W = true

theorem opcodeTable_buildsWellFormed (W : Nat) : ∀ r ∈ opcodeTable, r.format.BuildsWellFormed W := by
  simp only [opcodeTable, List.forall_mem_cons]
  exact ⟨rfl, fun _ => decide_eq_true, fun _ => decide_eq_true, fun _ => decide_eq_true, fun _ => decide_eq_true, rfl,
    fun _ => decide_eq_true, fun _ => decide_eq_true, rfl, rfl, fun _ => decide_eq_true, fun _ => decide_eq_true, rfl,
    nofun⟩

theorem lookupOpcode_buildsWellFormed {v : Int} {f : Format} (hl : lookupOpcode v = some f) (W : Nat) :
    f.BuildsWellFormed W := by
  obtain ⟨r, hr, -, rfl⟩ := lookupOpcode_some hl
  exact opcodeTable_buildsWellFormed W r hr

namespace Machine

/-- The call target max(op - 1, 0) fits the pc (40 R65 CALL). -/
theorem callTarget_fits {W : Nat} (hW : 1 ≤ W) {op : Int} (hop : FitsCell W op) : FitsIndex W (callTarget op) := by
  have h := fitsIndex_toNat (fitsInfo_of_fitsCell hW hop)
  unfold FitsIndex at h ⊢
  unfold callTarget
  omega

theorem FatalError.code_ne_none (e : FatalError) : e.code ≠ .none := by
  cases e <;> exact nofun

/-! ### The updates that ctrl_state does not speak of -/

theorem State.Inv.one_le_wordBits {s : State} (h : s.Inv) : 1 ≤ s.cfg.wordBits :=
  le_trans (by decide) h.cfg_valid.1

theorem State.Inv.setA {s : State} (h : s.Inv) {v : Int} (hv : FitsCell s.cfg.wordBits v) : (s.setA v).Inv :=
  { h with a_fits := hv }

theorem State.Inv.setX {s : State} (h : s.Inv) {v : Int} (hv : FitsCell s.cfg.wordBits v) : (s.setX v).Inv :=
  { h with x_fits := hv }

theorem State.Inv.setY {s : State} (h : s.Inv) {v : Int} (hv : FitsCell s.cfg.wordBits v) : (s.setY v).Inv :=
  { h with y_fits := hv }

theorem State.Inv.setFlags {s : State} (h : s.Inv) (b : Bool) : (s.setFlags b).Inv :=
  { h with }

theorem State.Inv.setSp {s : State} (h : s.Inv) {p : Nat} (hp : p < s.cfg.memCells) : (s.setSp p).Inv :=
  { h with sp_in_memory := hp }

/-- Writing a value that fits to a cell inside memory. -/
theorem State.Inv.write {s : State} (h : s.Inv) {k : Nat} {v : Int} (hk : k < s.cfg.memCells)
    (hv : FitsCell s.cfg.wordBits v) : (s.setMem (s.mem.write k v)).Inv :=
  { h with mem_fits := h.mem_fits.write hk hv }

/-- Writing a value that fits through the memory port, whose check passed. -/
theorem State.Inv.write_toNat {s : State} (h : s.Inv) {addr v : Int} (h0 : 0 ≤ addr) (h1 : addr < s.cfg.memCells)
    (hv : FitsCell s.cfg.wordBits v) : (s.setMem (s.mem.write addr.toNat v)).Inv :=
  h.write (by omega) hv

/-- Drawing a free value for JSR's return cell (log entry 10). -/
theorem State.Inv.returnCell {s : State} (h : s.Inv) : s.returnCell.1.Inv := by
  unfold State.returnCell
  split
  · exact h
  · exact { h with }

/-! ### The updates that move ctrl_state -/

/-- Between steps a running core is in FETCH. -/
theorem State.Inv.ctrl_of_running {s : State} (h : s.Inv) (hr : s.ctrl.running = true) : s.ctrl = .fetch := by
  have hco := h.coherent
  unfold State.Coherent at hco
  cases hc : s.ctrl with
  | fetch => rfl
  | decode | operand | execute => rw [hc] at hco; exact hco.elim
  | idle | halted | outOfBounds | faulted => rw [hc] at hr; cases hr

/-- In FETCH there is no fault. -/
theorem State.Inv.faultCode_of_fetch {s : State} (h : s.Inv) (hc : s.ctrl = .fetch) : s.faultCode = .none := by
  have hco := h.coherent
  unfold State.Coherent at hco
  rwa [hc] at hco

/-- In FETCH nothing ties halted to the rest of the state (43 R86). -/
theorem State.Inv.setHalted {s : State} (h : s.Inv) (hc : s.ctrl = .fetch) (b : Bool) : (s.setHalted b).Inv :=
  { h with
    coherent := by
      unfold State.Coherent
      rw [State.setHalted_ctrl, hc]
      exact h.faultCode_of_fetch hc }

/-- The commit of a next pc that fits (40 R73). -/
theorem State.Inv.commit {s : State} (h : s.Inv) (hc : s.ctrl = .fetch) {p : Nat} (hp : FitsIndex s.cfg.wordBits p) :
    ((s.setPc p).setCtrl .fetch).Inv :=
  { h with pc_fits := hp, coherent := h.faultCode_of_fetch hc }

/-- The loop check's stop in HALTED or OUT_OF_BOUNDS (40 R58). -/
theorem State.Inv.stop {s : State} (h : s.Inv) (hc : s.ctrl = .fetch) {c : CtrlState} (hl : s.loopCheck = some c) :
    (s.setCtrl c).Inv := by
  have hn := h.faultCode_of_fetch hc
  unfold State.loopCheck at hl
  split at hl
  · rename_i hh
    cases hl
    exact { h with coherent := ⟨hh, hn⟩ }
  · rename_i hh
    split at hl
    · rename_i hp
      cases hl
      exact { h with coherent := ⟨by simpa using hh, hp, hn⟩ }
    · cases hl

/-! ### A core whose loop check passed: its fault entries and its meanings -/

/-- A core that meets the invariant and is past its loop check: the states in which a step fetches and executes. -/
structure State.InvPastCheck (s : State) : Prop where
  inv : s.Inv
  ctrl : s.ctrl = .fetch
  halted : s.halted = false
  pc_in_memory : s.pc < s.cfg.memCells

theorem State.Inv.pastCheck {s : State} (h : s.Inv) (hr : s.ctrl.running = true) (hl : s.loopCheck = none) :
    s.InvPastCheck :=
  have ⟨hh, hp⟩ := State.loopCheck_none.mp hl
  ⟨h, h.ctrl_of_running hr, hh, hp⟩

namespace State.InvPastCheck

variable {s t : State} {op : Int}

/-- Fault entry with a value that fits fault_info (60 R98). -/
theorem inv_enterFault (h : s.InvPastCheck) {e : FatalError} (he : FitsInfo s.cfg.wordBits e.info) :
    (s.enterFault e).Inv :=
  { h.inv with
    info_fits := he
    info_of_none := fun hn => absurd hn e.code_ne_none
    coherent := ⟨h.halted, h.pc_in_memory, e.code_ne_none⟩ }

theorem seq1_fits (h : s.InvPastCheck) : FitsIndex s.cfg.wordBits (s.pc + 1) :=
  h.inv.cfg_valid.fitsIndex (Nat.succ_le_succ h.pc_in_memory.le)

theorem seq2_fits (h : s.InvPastCheck) : FitsIndex s.cfg.wordBits (s.pc + 2) :=
  h.inv.cfg_valid.fitsIndex (Nat.succ_le_succ h.pc_in_memory)

theorem cell_fitsInfo (h : s.InvPastCheck) {v : Int} (hv : FitsCell s.cfg.wordBits v) : FitsInfo s.cfg.wordBits v :=
  fitsInfo_of_fitsCell h.inv.one_le_wordBits hv

theorem relativeTarget_fitsInfo (h : s.InvPastCheck) (hop : FitsCell s.cfg.wordBits op) :
    FitsInfo s.cfg.wordBits ((s.pc : Int) + op) :=
  h.inv.cfg_valid.fitsInfo_relativeTarget h.pc_in_memory hop

/-- STA keeps the invariant (41 R77). -/
theorem inv_execSta (h : s.InvPastCheck) (hop : FitsCell s.cfg.wordBits op) (ht : execSta op s = .next t) : t.Inv := by
  obtain ⟨h0, h1, rfl⟩ | ⟨-, rfl⟩ := execSta_cases ht
  · exact (h.inv.write_toNat h0 h1 h.inv.a_fits).commit h.ctrl h.seq2_fits
  · exact h.inv_enterFault (h.cell_fitsInfo hop)

/-- STA_X keeps the invariant (41 R78). -/
theorem inv_execStaX (h : s.InvPastCheck) (ht : execStaX s = .next t) : t.Inv := by
  obtain ⟨h0, h1, rfl⟩ | ⟨-, rfl⟩ := execStaX_cases ht
  · exact (h.inv.write_toNat h0 h1 h.inv.a_fits).commit h.ctrl h.seq1_fits
  · exact h.inv_enterFault (h.cell_fitsInfo h.inv.x_fits)

/-- BNE keeps the invariant (43 R87). -/
theorem inv_execBne (h : s.InvPastCheck) (hop : FitsCell s.cfg.wordBits op) (ht : execBne op s = .next t) : t.Inv := by
  obtain ⟨-, -, rfl⟩ | ⟨-, rfl⟩ | ⟨-, -, rfl⟩ := execBne_cases ht
  · exact h.inv.commit h.ctrl (fitsIndex_toNat (h.relativeTarget_fitsInfo hop))
  · exact h.inv.commit h.ctrl h.seq2_fits
  · exact h.inv_enterFault (h.relativeTarget_fitsInfo hop)

/-- JSR keeps the invariant (43 R88). -/
theorem inv_execJsr (h : s.InvPastCheck) (hop : FitsCell s.cfg.wordBits op) (ht : execJsr op s = .next t) : t.Inv := by
  have hW := h.inv.one_le_wordBits
  obtain ⟨-, hsp, rfl⟩ | ⟨-, rfl⟩ | ⟨-, hsp, -⟩ := execJsr_cases ht
  · have hpush : (s.returnCell.1.setMem (s.mem.write s.sp s.returnCell.2)).Inv := by
      simpa using h.inv.returnCell.write (by simpa using hsp) (by simpa using State.returnCell_fits hW)
    refine (hpush.setSp ?_).commit (by simpa using h.ctrl) (by simpa using callTarget_fits hW hop)
    rw [State.setMem_cfg, State.returnCell_fst_cfg]
    exact lt_of_le_of_lt (Nat.sub_le _ _) hsp
  · exact h.inv_enterFault (fitsInfo_zero _)
  · exact absurd h.inv.sp_in_memory (Nat.not_lt.mpr hsp)

/-- RTS keeps the invariant (43 R89). -/
theorem inv_execRts (h : s.InvPastCheck) (ht : execRts s = .next t) : t.Inv := by
  have hcell := h.cell_fitsInfo (h.inv.mem_fits.read (s.sp + 1))
  obtain ⟨hsp, -, rfl⟩ | ⟨-, rfl⟩ | ⟨-, -, rfl⟩ := execRts_cases ht
  · exact (h.inv.setSp hsp).commit h.ctrl (fitsIndex_toNat hcell)
  · exact h.inv_enterFault (h.inv.cfg_valid.fitsInfo_index h.inv.sp_in_memory)
  · exact h.inv_enterFault hcell

/-- Every well-formed instruction keeps the invariant. -/
theorem inv_exec {i : Instr} (h : s.InvPastCheck) (hw : i.wellFormed s.cfg.wordBits = true) (ht : exec i s = .next t) :
    t.Inv := by
  have hW := h.inv.one_le_wordBits
  cases i with
  | brk => cases ht; exact (h.inv.setHalted h.ctrl true).commit h.ctrl h.seq1_fits
  | lda op => cases ht; exact (h.inv.setA (of_decide_eq_true hw)).commit h.ctrl h.seq2_fits
  | adc op => cases ht; exact (h.inv.setA (wrap_fits hW _)).commit h.ctrl h.seq2_fits
  | sta op => exact h.inv_execSta (of_decide_eq_true hw) ht
  | ldx op => cases ht; exact (h.inv.setX (of_decide_eq_true hw)).commit h.ctrl h.seq2_fits
  | inx => cases ht; exact (h.inv.setX (wrap_fits hW _)).commit h.ctrl h.seq1_fits
  | cmy op => cases ht; exact (h.inv.setFlags (s.compareFlag (immediate op))).commit h.ctrl h.seq2_fits
  | bne op => exact h.inv_execBne (of_decide_eq_true hw) ht
  | staX => exact h.inv_execStaX ht
  | dey => cases ht; exact (h.inv.setY (wrap_fits hW _)).commit h.ctrl h.seq1_fits
  | ldy op => cases ht; exact (h.inv.setY (of_decide_eq_true hw)).commit h.ctrl h.seq2_fits
  | jsr op => exact h.inv_execJsr (of_decide_eq_true hw) ht
  | rts => exact h.inv_execRts ht

/-- The fetch's own faults record a value that fits fault_info (60 R92, R93). -/
theorem fetch_error_fitsInfo (h : s.InvPastCheck) {e : FatalError} (he : s.fetchInstr = .error e) :
    FitsInfo s.cfg.wordBits e.info := by
  obtain ⟨-, rfl⟩ | ⟨-, -, -, rfl⟩ := State.fetchInstr_error he
  · exact h.cell_fitsInfo (h.inv.mem_fits.read s.pc)
  · exact h.inv.cfg_valid.fitsInfo_index h.pc_in_memory

end State.InvPastCheck

/-- From memory within its bounds only well-formed instructions are fetched. -/
theorem State.fetchInstr_wellFormed {s : State} {i : Instr} (hm : s.mem.Fits s.cfg) (hi : s.fetchInstr = .ok i) :
    i.wellFormed s.cfg.wordBits = true := by
  obtain hl | ⟨mk, hl, -, rfl⟩ := State.fetchInstr_ok hi
  · exact lookupOpcode_buildsWellFormed hl _
  · exact lookupOpcode_buildsWellFormed hl _ _ (hm.read (s.pc + 1))

/-- A step of a running core keeps the invariant, whichever of the three things of `step_cases` it does. -/
theorem State.Inv.step_of_running {s t : State} (h : s.Inv) (hr : s.ctrl.running = true) (ht : step s = .next t) :
    t.Inv := by
  obtain ⟨c, hl, hs⟩ | ⟨hl, e, he, hs⟩ | ⟨hl, i, hi, hs⟩ := step_cases hr
  · cases hs.symm.trans ht
    exact h.stop (h.ctrl_of_running hr) hl
  · have hp := h.pastCheck hr hl
    cases hs.symm.trans ht
    exact hp.inv_enterFault (hp.fetch_error_fitsInfo he)
  · exact (h.pastCheck hr hl).inv_exec (State.fetchInstr_wellFormed h.mem_fits hi) (hs ▸ ht)

/-- Settles O40: a core that does not run stays, and a running one stops, faults or executes, each of which keeps the
invariant by the rules above. -/
theorem everyStepKeepsTheInvariant : Obligations.EveryStepKeepsTheInvariant := by
  intro s t h ht
  cases hr : s.ctrl.running with
  | false =>
    cases (step_of_not_running hr).symm.trans ht
    exact h
  | true => exact h.step_of_running hr ht

end Machine
end Sys2Proof
end

/-! ## What every instruction does: the fault it raises, or the state it commits -/

section
namespace Sys2Proof

/-- What a row of the opcode table builds has the row's opcode, whatever the operand (30 R51). -/
def Format.BuildsOpcode (v : Int) : Format → Prop
  | .o i => i.opcode = v
  | .oi mk => ∀ op, (mk op).opcode = v

theorem opcodeTable_buildsOpcode : ∀ r ∈ opcodeTable, r.format.BuildsOpcode r.opcode := by
  simp only [opcodeTable, List.forall_mem_cons]
  exact ⟨rfl, fun _ => rfl, fun _ => rfl, fun _ => rfl, fun _ => rfl, rfl, fun _ => rfl, fun _ => rfl, rfl, rfl,
    fun _ => rfl, fun _ => rfl, rfl, nofun⟩

theorem lookupOpcode_buildsOpcode {v : Int} {f : Format} (hl : lookupOpcode v = some f) : f.BuildsOpcode v := by
  obtain ⟨r, hr, rfl, rfl⟩ := lookupOpcode_some hl
  exact opcodeTable_buildsOpcode r hr

namespace Machine

/-- The fetched instruction is one of the opcode cell's (40 R59, R64). -/
theorem State.fetchInstr_opcode {s : State} {i : Instr} (hi : s.fetchInstr = .ok i) : i.opcode = s.opcodeCell := by
  obtain hl | ⟨f, hl, -, rfl⟩ := State.fetchInstr_ok hi
  · exact lookupOpcode_buildsOpcode hl
  · exact lookupOpcode_buildsOpcode hl _

/-- The memory port's check (20 R34). -/
def State.portFault (s : State) (addr : Int) : Option FatalError :=
  if 0 ≤ addr ∧ addr < s.cfg.memCells then none else some (.memoryAccessOutOfRange addr)

theorem State.portFault_eq_none {s : State} {addr : Int} :
    s.portFault addr = none ↔ 0 ≤ addr ∧ addr < s.cfg.memCells := by
  simp [State.portFault]

/-- The fault an instruction's rule raises, if any, in the order of 60 R97. -/
def State.execFault (s : State) : Instr → Option FatalError
  | .sta op => s.portFault op
  | .staX => s.portFault s.x
  | .bne op => if s.flags = false ∧ (s.pc : Int) + op < 0 then some (.negativePc ((s.pc : Int) + op)) else none
  | .jsr _ => if s.sp = 0 then some (.stackOverflow 0) else s.portFault s.sp
  | .rts => (s.portFault ((s.sp : Int) + 1)).or
      (if s.mem.read (s.sp + 1) < 0 then some (.negativePc (s.mem.read (s.sp + 1))) else none)
  | .brk | .lda _ | .adc _ | .ldx _ | .inx | .cmy _ | .dey | .ldy _ => none

/-- The state an instruction commits where it raises no fault, but for ctrl_state's return to FETCH (40 R73). -/
def State.execCommit (s : State) : Instr → State
  | .brk => (s.setHalted true).setPc (s.pc + 1)
  | .lda op => (s.setA op).setPc (s.pc + 2)
  | .adc op => (s.setA (aluAdd s.cfg.wordBits s.a op)).setPc (s.pc + 2)
  | .sta op => (s.setMem (s.mem.write op.toNat s.a)).setPc (s.pc + 2)
  | .ldx op => (s.setX op).setPc (s.pc + 2)
  | .inx => (s.setX (aluAdd s.cfg.wordBits s.x 1)).setPc (s.pc + 1)
  | .cmy op => (s.setFlags (s.compareFlag op)).setPc (s.pc + 2)
  | .bne op => s.setPc (if s.flags then s.pc + 2 else ((s.pc : Int) + op).toNat)
  | .staX => (s.setMem (s.mem.write s.x.toNat s.a)).setPc (s.pc + 1)
  | .dey => (s.setY (aluSub s.cfg.wordBits s.y 1)).setPc (s.pc + 1)
  | .ldy op => (s.setY op).setPc (s.pc + 2)
  | .jsr op =>
    ((s.returnCell.1.setMem (s.mem.write s.sp s.returnCell.2)).setSp (s.sp - 1)).setPc (callTarget op)
  | .rts => (s.setSp (s.sp + 1)).setPc (s.mem.read (s.sp + 1)).toNat

/-- Every meaning either commits its state or enters its fault (40 R71). -/
theorem exec_cases {i : Instr} {s t : State} (h : exec i s = .next t) :
    (s.execFault i = none ∧ t = (s.execCommit i).setCtrl .fetch) ∨
      ∃ e, s.execFault i = some e ∧ t = s.enterFault e := by
  cases i with
  | brk | lda | adc | ldx | inx | cmy | dey | ldy => cases h; exact .inl ⟨rfl, rfl⟩
  | sta op =>
    obtain ⟨h0, h1, rfl⟩ | ⟨hb, rfl⟩ := execSta_cases h
    · exact .inl ⟨if_pos ⟨h0, h1⟩, rfl⟩
    · exact .inr ⟨_, if_neg hb, rfl⟩
  | staX =>
    obtain ⟨h0, h1, rfl⟩ | ⟨hb, rfl⟩ := execStaX_cases h
    · exact .inl ⟨if_pos ⟨h0, h1⟩, rfl⟩
    · exact .inr ⟨_, if_neg hb, rfl⟩
  | bne op =>
    obtain ⟨hf, h0, rfl⟩ | ⟨hf, rfl⟩ | ⟨hf, h0, rfl⟩ := execBne_cases h
    · exact .inl ⟨if_neg (by omega), by simp [State.execCommit, hf]⟩
    · exact .inl ⟨if_neg (by simp [hf]), by simp [State.execCommit, hf]⟩
    · exact .inr ⟨_, if_pos ⟨hf, h0⟩, rfl⟩
  | jsr op =>
    obtain ⟨h0, h1, rfl⟩ | ⟨h0, rfl⟩ | ⟨h0, h1, rfl⟩ := execJsr_cases h
    · exact .inl ⟨(if_neg h0.ne').trans (if_pos (by omega)), rfl⟩
    · exact .inr ⟨_, if_pos h0, rfl⟩
    · exact .inr ⟨_, (if_neg h0.ne').trans (if_neg (by omega)), rfl⟩
  | rts =>
    obtain ⟨h0, h1, rfl⟩ | ⟨h0, rfl⟩ | ⟨h0, h1, rfl⟩ := execRts_cases h
    · have hp : s.portFault ((s.sp : Int) + 1) = none := if_pos (by omega)
      exact .inl ⟨by simpa [State.execFault, hp] using h1, rfl⟩
    · have hp : s.portFault ((s.sp : Int) + 1) = some (.memoryAccessOutOfRange ((s.sp : Int) + 1)) :=
        if_neg (by omega)
      exact .inr ⟨_, by simp [State.execFault, hp], rfl⟩
    · have hp : s.portFault ((s.sp : Int) + 1) = none := if_pos (by omega)
      exact .inr ⟨_, by simp [State.execFault, hp, h1], rfl⟩

theorem exec_answers (i : Instr) (s : State) : ∃ t, exec i s = .next t := by
  obtain ⟨r, hr⟩ := exec_concludes i s
  exact hr ▸ s.conclude_answers r

theorem exec_of_no_fault {i : Instr} {s : State} (h : s.execFault i = none) :
    exec i s = .next ((s.execCommit i).setCtrl .fetch) := by
  obtain ⟨t, ht⟩ := exec_answers i s
  obtain ⟨-, rfl⟩ | ⟨e, he, -⟩ := exec_cases ht
  · exact ht
  · cases h.symm.trans he

theorem exec_of_fault {i : Instr} {s : State} {e : FatalError} (h : s.execFault i = some e) :
    exec i s = .next (s.enterFault e) := by
  obtain ⟨t, ht⟩ := exec_answers i s
  obtain ⟨hn, -⟩ | ⟨e', he, rfl⟩ := exec_cases ht
  · cases hn.symm.trans h
  · cases he.symm.trans h
    exact ht

/-! ### What a step does -/

/-- A step moves ctrl_state alone (or nothing), enters a fault, or runs the fetched instruction. -/
theorem step_next_cases {s t : State} (ht : step s = .next t) :
    (∃ c, t = s.setCtrl c) ∨ (∃ e, t = s.enterFault e) ∨
      (s.ctrl.running = true ∧ s.loopCheck = none ∧ ∃ i, s.fetchInstr = .ok i ∧ exec i s = .next t) := by
  cases hr : s.ctrl.running with
  | false =>
    cases (step_of_not_running hr).symm.trans ht
    exact .inl ⟨s.ctrl, rfl⟩
  | true =>
    obtain ⟨c, -, hs⟩ | ⟨-, e, -, hs⟩ | ⟨hl, i, hi, hs⟩ := step_cases hr
    · cases hs.symm.trans ht
      exact .inl ⟨c, rfl⟩
    · cases hs.symm.trans ht
      exact .inr (.inl ⟨e, rfl⟩)
    · exact .inr (.inr ⟨rfl, hl, i, hi, hs ▸ ht⟩)

theorem step_of_stop {s : State} {c : CtrlState} (hr : s.ctrl.running = true) (hl : s.loopCheck = some c) :
    step s = .next (s.setCtrl c) := by
  unfold step
  rw [if_pos hr, hl]

theorem step_of_fetch_error {s : State} {e : FatalError} (hr : s.ctrl.running = true) (hl : s.loopCheck = none)
    (he : s.fetchInstr = .error e) : step s = .next (s.enterFault e) := by
  unfold step
  rw [if_pos hr, hl, he]

theorem step_of_fetch_ok {s : State} {i : Instr} (hr : s.ctrl.running = true) (hl : s.loopCheck = none)
    (hi : s.fetchInstr = .ok i) : step s = exec i s := by
  unfold step
  rw [if_pos hr, hl, hi]

end Machine
end Sys2Proof
end

/-! ## Frames of the state (10 sections 2 and 5): the registers' writers, the stores' addresses, the readers of flags -/

section
namespace Sys2Proof.Machine

/-- Settles O26: fault entry writes the fault status alone, and the committed state of each instruction shows its
writes. -/
theorem registersChangeOnlyByTheirWriters : Obligations.RegistersChangeOnlyByTheirWriters := by
  intro i s t h
  obtain ⟨-, rfl⟩ | ⟨e, -, rfl⟩ := exec_cases h
  · cases i <;> simp [State.execCommit]
  · simp

/-- Settles O27: only STA, STA_X and JSR commit another memory, each a write of one cell; that the memory port's check
passed makes the cell's index the address itself. -/
theorem storesReachOnlyTheirAddress : Obligations.StoresReachOnlyTheirAddress := by
  intro i s t h k hk
  obtain ⟨hn, rfl⟩ | ⟨e, -, rfl⟩ := exec_cases h
  · cases i with
    | sta op =>
      have ⟨h0, _⟩ := State.portFault_eq_none.mp hn
      have hne : k ≠ op.toNat := fun he => hk (he ▸ Int.toNat_of_nonneg h0)
      exact Memory.read_write_other s.mem hne s.a
    | staX =>
      have ⟨h0, _⟩ := State.portFault_eq_none.mp hn
      have hne : k ≠ s.x.toNat := fun he => hk (he ▸ Int.toNat_of_nonneg h0)
      exact Memory.read_write_other s.mem hne s.a
    | jsr op => exact Memory.read_write_other s.mem hk s.returnCell.2
    | brk | lda | adc | ldx | inx | cmy | bne | dey | ldy | rts => rfl
  · rfl

/-! ### flags is read by BNE alone -/

theorem State.returnCell_of_not_fits {s : State} (h : ¬FitsCell s.cfg.wordBits ((s.pc : Int) + 2)) :
    s.returnCell =
      ({ s with freeCount := s.freeCount + 1 }, wrap s.cfg.wordBits (Config.freeCell s.freeCount)) :=
  if_neg h

theorem State.returnCell_setFlags (s : State) (b : Bool) :
    (s.setFlags b).returnCell = (s.returnCell.1.setFlags b, s.returnCell.2) := by
  by_cases hf : FitsCell s.cfg.wordBits ((s.pc : Int) + 2)
  · rw [State.returnCell_of_fits hf, State.returnCell_of_fits (s := s.setFlags b) hf]
    rfl
  · rw [State.returnCell_of_not_fits hf, State.returnCell_of_not_fits (s := s.setFlags b) hf]
    rfl

/-- Whether an instruction other than BNE faults, and how, does not depend on flags. -/
theorem State.execFault_setFlags {i : Instr} (hi : i.opcode ≠ 7) (s : State) (b : Bool) :
    (s.setFlags b).execFault i = s.execFault i := by
  cases i with
  | bne op => exact absurd rfl hi
  | _ => rfl

/-- What an instruction other than BNE commits does not depend on flags, flags itself apart. -/
theorem State.execCommit_setFlags {i : Instr} (hi : i.opcode ≠ 7) (s : State) (b : Bool) :
    ((s.setFlags b).execCommit i).setFlags (s.execCommit i).flags = s.execCommit i := by
  cases i with
  | bne op => exact absurd rfl hi
  | jsr op => simp only [State.execCommit, State.returnCell_setFlags]; rfl
  | _ => rfl

/-- The run of an instruction other than BNE from other flags. -/
theorem exec_setFlags {i : Instr} {s t : State} (hi : i.opcode ≠ 7) (b : Bool) (h : exec i s = .next t) :
    ∃ t', exec i (s.setFlags b) = .next t' ∧ t'.setFlags t.flags = t := by
  have hf := State.execFault_setFlags hi s b
  obtain ⟨hn, rfl⟩ | ⟨e, he, rfl⟩ := exec_cases h
  · exact ⟨_, exec_of_no_fault (hf.trans hn), congrArg (·.setCtrl .fetch) (State.execCommit_setFlags hi s b)⟩
  · exact ⟨_, exec_of_fault (hf.trans he), rfl⟩

/-- A step that changes flags is a step at CMY: neither the loop check nor fault entry writes flags, and of the
instructions CMY alone does. -/
theorem at_cmy_of_step_flags_ne {s t : State} (ht : step s = .next t) (hne : t.flags ≠ s.flags) : s.At 6 := by
  obtain ⟨c, rfl⟩ | ⟨e, rfl⟩ | ⟨hr, hl, i, hi, hx⟩ := step_next_cases ht
  · exact absurd rfl hne
  · exact absurd rfl hne
  · obtain ⟨-, -, -, hflags, -⟩ := registersChangeOnlyByTheirWriters i s t hx
    obtain ⟨op, rfl⟩ := hflags hne
    obtain ⟨hh, hp⟩ := State.loopCheck_none.mp hl
    exact ⟨hr, hh, hp, (State.fetchInstr_opcode hi).symm⟩

/-- The step at an opcode other than BNE from other flags: the loop check and the fetch do not read flags, and the
fetched instruction is no BNE. -/
theorem step_setFlags {s t : State} (hop : s.opcodeCell ≠ 7) (b : Bool) (ht : step s = .next t) :
    ∃ t', step (s.setFlags b) = .next t' ∧ t'.setFlags t.flags = t := by
  cases hr : s.ctrl.running with
  | false =>
    cases (step_of_not_running hr).symm.trans ht
    exact ⟨s.setFlags b, step_of_not_running hr, rfl⟩
  | true =>
    obtain ⟨c, hl, hs⟩ | ⟨hl, e, he, hs⟩ | ⟨hl, i, hi, hs⟩ := step_cases hr
    · cases hs.symm.trans ht
      exact ⟨_, step_of_stop (s := s.setFlags b) hr hl, rfl⟩
    · cases hs.symm.trans ht
      exact ⟨_, step_of_fetch_error (s := s.setFlags b) hr hl he, rfl⟩
    · obtain ⟨t', ht', hflags⟩ := exec_setFlags (State.fetchInstr_opcode hi ▸ hop) b (hs ▸ ht)
      exact ⟨t', (step_of_fetch_ok (s := s.setFlags b) hr hl hi).trans ht', hflags⟩

/-- Settles O28: the writer's half by what a step can do, the reader's half by running it again from other flags. -/
theorem flagsAreCmysToWriteAndBnesToRead : Obligations.FlagsAreCmysToWriteAndBnesToRead :=
  ⟨fun _ _ => at_cmy_of_step_flags_ne, fun _ _ b hop => step_setFlags hop b⟩

end Sys2Proof.Machine
end

/-! ## Construction and the host's transactions meet the invariant, so every reachable state does -/

section
namespace Sys2Proof.Machine

/-- The reset values meet the invariant under legal parameters (10 R29). -/
theorem State.inv_resetOf {c : Config} (hc : c.Valid) : (State.resetOf c).Inv where
  cfg_valid := hc
  mem_fits := ⟨⟨.nil, nofun⟩, nofun⟩
  a_fits := fitsCell_zero _
  x_fits := fitsCell_zero _
  y_fits := fitsCell_zero _
  pc_fits := hc.fitsIndex (Nat.zero_le _)
  sp_in_memory := Nat.sub_lt hc.2.1 Nat.one_pos
  info_fits := fitsInfo_zero _
  info_of_none := fun _ => rfl
  coherent := ⟨rfl, rfl, rfl⟩

/-- Settles O39: the reset values under legal parameters, those of `State.reset` among them. -/
theorem constructionMeetsTheInvariant : Obligations.ConstructionMeetsTheInvariant :=
  ⟨fun _ => State.inv_resetOf, State.inv_resetOf (by decide)⟩

/-- Reset is construction, but for the counter of free values (70 R106). -/
theorem State.Inv.hostReset {s : State} (h : s.Inv) : s.hostReset.Inv :=
  { State.inv_resetOf h.cfg_valid with }

/-- LOAD changes nothing, or writes a program that fits to cells inside memory (70 R108). -/
theorem State.Inv.hostLoad {s t : State} {prog : List Int} {r : LoadResult} (h : s.Inv)
    (ht : s.hostLoad prog = .next (t, r)) : t.Inv := by
  obtain rfl | ⟨hv, hlen, -, rfl⟩ := State.hostLoad_cases ht
  · exact h
  · exact { h with mem_fits := h.mem_fits.writeAll hlen hv }

theorem State.hostLoad_cfg {s t : State} {prog : List Int} {r : LoadResult} (ht : s.hostLoad prog = .next (t, r)) :
    t.cfg = s.cfg := by
  obtain rfl | ⟨-, -, -, rfl⟩ := State.hostLoad_cases ht <;> rfl

/-- RUN leaves IDLE for FETCH, and changes nothing in any other state (70 R109). -/
theorem State.hostRun_cases (s : State) : (s.ctrl = .idle ∧ s.hostRun = s.setCtrl .fetch) ∨ s.hostRun = s := by
  unfold State.hostRun
  split
  · exact .inl ⟨by assumption, rfl⟩
  all_goals exact .inr rfl

/-- In IDLE there is no fault. -/
theorem State.Inv.faultCode_of_idle {s : State} (h : s.Inv) (hc : s.ctrl = .idle) : s.faultCode = .none := by
  have hco := h.coherent
  unfold State.Coherent at hco
  rw [hc] at hco
  exact hco.2.2

theorem State.Inv.hostRun {s : State} (h : s.Inv) : s.hostRun.Inv := by
  obtain ⟨hc, hs⟩ | hs := s.hostRun_cases
  · rw [hs]
    exact { h with coherent := h.faultCode_of_idle hc }
  · rwa [hs]

theorem State.hostRun_cfg (s : State) : s.hostRun.cfg = s.cfg := by
  obtain ⟨-, hs⟩ | hs := s.hostRun_cases
  · rw [hs, State.setCtrl_cfg]
  · rw [hs]

/-- No step changes W and N (00 R6, R7). -/
theorem step_cfg {s t : State} (ht : step s = .next t) : t.cfg = s.cfg := by
  obtain ⟨c, rfl⟩ | ⟨e, rfl⟩ | ⟨-, -, i, -, hx⟩ := step_next_cases ht
  · rfl
  · rfl
  · obtain ⟨-, -, -, -, -, -, -, -, hcfg⟩ := registersChangeOnlyByTheirWriters i s t hx
    exact hcfg

/-- Settles O41, by induction on how the state came about: construction meets the invariant, and each host transaction
and each step keeps it, with W and N. -/
theorem everyReachableStateMeetsTheInvariant : Obligations.EveryReachableStateMeetsTheInvariant := by
  intro c s hc hr
  induction hr with
  | construction => exact ⟨State.inv_resetOf hc, rfl⟩
  | reset s _ ih => exact ⟨ih.1.hostReset, ih.2⟩
  | load s t prog r _ ht ih => exact ⟨ih.1.hostLoad ht, (State.hostLoad_cfg ht).trans ih.2⟩
  | run s _ ih => exact ⟨ih.1.hostRun, s.hostRun_cfg.trans ih.2⟩
  | step s t _ ht ih => exact ⟨everyStepKeepsTheInvariant s t ih.1 ht, (step_cfg ht).trans ih.2⟩

end Sys2Proof.Machine
end

/-! ## A store is seen by the next fetch (20 R45) -/

section
namespace Sys2Proof.Machine

/-- An instruction that returns to FETCH raised no fault, and committed. -/
theorem exec_committed {i : Instr} {s t : State} (ht : exec i s = .next t) (hc : t.ctrl = .fetch) :
    s.execFault i = none ∧ t = (s.execCommit i).setCtrl .fetch := by
  obtain hcommit | ⟨e, -, rfl⟩ := exec_cases ht
  · exact hcommit
  · cases hc

/-- A step that returns to FETCH from a one-cell opcode committed its instruction. -/
theorem step_committed_one_cell {s t : State} {v : Int} {i : Instr} (hl : lookupOpcode v = some (.o i)) (hat : s.At v)
    (ht : step s = .next t) (hc : t.ctrl = .fetch) :
    s.execFault i = none ∧ t = (s.execCommit i).setCtrl .fetch :=
  exec_committed ((step_at_one_cell hl hat).symm.trans ht) hc

/-- A step that returns to FETCH from a two-cell opcode found the operand cell (40 R72) and committed its
instruction. -/
theorem step_committed_two_cells {s t : State} {v : Int} {f : Int → Instr} (hl : lookupOpcode v = some (.oi f))
    (hat : s.At v) (ht : step s = .next t) (hc : t.ctrl = .fetch) :
    s.execFault (f (s.mem.read (s.pc + 1))) = none ∧
      t = (s.execCommit (f (s.mem.read (s.pc + 1)))).setCtrl .fetch := by
  obtain hp | hp := Nat.lt_or_ge (s.pc + 1) s.cfg.memCells
  · exact exec_committed ((step_at_two_cells hl hat hp).symm.trans ht) hc
  · cases (step_at_missing_operand hl hat hp).symm.trans ht
    cases hc

theorem State.At.not_halted {s : State} {v : Int} (h : s.At v) : s.halted = false :=
  (State.loopCheck_none.mp h.loopCheck).1

/-- The memory port lets a cell index through only inside memory (20 R34). -/
theorem State.lt_of_portFault_none {s : State} {k : Nat} (h : s.portFault k = none) : k < s.cfg.memCells :=
  Int.ofNat_lt.mp (State.portFault_eq_none.mp h).2

/-- A JSR that raises no fault has its stack cell inside memory (40 R66). -/
theorem State.lt_of_jsr_no_fault {s : State} {op : Int} (h : s.execFault (.jsr op) = none) :
    s.sp < s.cfg.memCells := by
  by_cases h0 : s.sp = 0
  · cases (if_pos h0).symm.trans h
  · exact State.lt_of_portFault_none ((if_neg h0).symm.trans h)

/-- Where a cell holds the return address, JSR commits it at sp (43 R88). -/
theorem State.execCommit_jsr_of_fits {s : State} (h : FitsCell s.cfg.wordBits ((s.pc : Int) + 2)) (op : Int) :
    s.execCommit (.jsr op) =
      ((s.setMem (s.mem.write s.sp ((s.pc : Int) + 2))).setSp (s.sp - 1)).setPc (callTarget op) := by
  rw [State.execCommit, State.returnCell_of_fits h]

/-- What the fetches at t read from cell k, for a core about to fetch: with pc at k it stands at the opcode there, and
with pc one below k that cell is its operand. -/
theorem State.fetch_reads {t : State} {k : Nat} {w : Int} (hc : t.ctrl = .fetch) (hh : t.halted = false)
    (hk : k < t.cfg.memCells) (hw : t.mem.read k = w) :
    (t.pc = k → t.At w) ∧ (t.pc + 1 = k → t.fetchCells = [t.opcodeCell, w]) := by
  constructor
  · rintro rfl
    exact ⟨by rw [hc]; rfl, hh, hk, hw⟩
  · rintro rfl
    rw [State.fetchCells, if_pos hk, hw]

/-- Settles O31: a step at one of the three stores that returns to FETCH committed its write, at the cell the memory
port let through, and the next fetch reads the memory with that write. -/
theorem storesAreSeenByTheNextFetch : Obligations.StoresAreSeenByTheNextFetch := by
  rintro s t k w hm ht hc (⟨hat, hk, rfl⟩ | ⟨hat, hk, rfl⟩ | ⟨hat, rfl, rfl, hfit⟩)
  · obtain ⟨hn, rfl⟩ := step_committed_two_cells (f := .sta) rfl hat ht hc
    rw [← hk] at hn ⊢
    exact State.fetch_reads rfl hat.not_halted (State.lt_of_portFault_none hn) (Memory.read_write_same hm k s.a)
  · obtain ⟨hn, rfl⟩ := step_committed_one_cell (i := .staX) rfl hat ht hc
    rw [State.execFault, ← hk] at hn
    rw [State.execCommit, ← hk]
    exact State.fetch_reads rfl hat.not_halted (State.lt_of_portFault_none hn) (Memory.read_write_same hm k s.a)
  · obtain ⟨hn, rfl⟩ := step_committed_two_cells (f := .jsr) rfl hat ht hc
    rw [State.execCommit_jsr_of_fits hfit]
    exact State.fetch_reads rfl hat.not_halted (State.lt_of_jsr_no_fault hn) (Memory.read_write_same hm s.sp _)

end Sys2Proof.Machine
end

/-! ## Encoding and decoding (30): the decoder's equations, the round trips, the legal opcodes -/

section
namespace Sys2Proof

/-! ### What the decoder answers, by what the opcode table holds at the opcode cell -/

variable {v op : Int} {rest : List Int}

theorem decode_of_no_opcode (hl : lookupOpcode v = none) : decode (v :: rest) = .error (.opcodeNotFound v) := by
  rw [decode, hl]

theorem decode_of_one_cell {i : Instr} (hl : lookupOpcode v = some (.o i)) : decode (v :: rest) = .ok (i, rest) := by
  rw [decode, hl]

theorem decode_of_two_cells {mk : Int → Instr} (hl : lookupOpcode v = some (.oi mk)) :
    decode (v :: op :: rest) = .ok (mk op, rest) := by
  rw [decode, hl]

theorem decode_of_missing_operand {mk : Int → Instr} (hl : lookupOpcode v = some (.oi mk)) :
    decode [v] = .error (.operandMissing v) := by
  rw [decode, hl]

/-! ### From cells to an instruction and back -/

/-- What a row of the opcode table builds is encoded in the row's opcode and the operand it was built from (30 R47). -/
def Format.BuildsEncoding (v : Int) : Format → Prop
  | .o i => encode i = [v]
  | .oi mk => ∀ op, encode (mk op) = [v, op]

theorem opcodeTable_buildsEncoding : ∀ r ∈ opcodeTable, r.format.BuildsEncoding r.opcode := by
  simp only [opcodeTable, List.forall_mem_cons]
  exact ⟨rfl, fun _ => rfl, fun _ => rfl, fun _ => rfl, fun _ => rfl, rfl, fun _ => rfl, fun _ => rfl, rfl, rfl,
    fun _ => rfl, fun _ => rfl, rfl, nofun⟩

theorem lookupOpcode_buildsEncoding {f : Format} (hl : lookupOpcode v = some f) : f.BuildsEncoding v := by
  obtain ⟨r, hr, rfl, rfl⟩ := lookupOpcode_some hl
  exact opcodeTable_buildsEncoding r hr

/-- Settles O2: the decoder succeeds at a one-cell row, or at a two-cell row with the operand cell there, and each row
builds an instruction whose encoding is the cells read. -/
theorem decodedCellsAreTheEncoding : Obligations.DecodedCellsAreTheEncoding := by
  intro cells i rest h
  match cells with
  | [] => cases h
  | v :: tail =>
    match hl : lookupOpcode v with
    | none => cases (decode_of_no_opcode hl).symm.trans h
    | some (.o _) =>
      cases (decode_of_one_cell hl).symm.trans h
      rw [lookupOpcode_buildsEncoding hl, List.singleton_append]
    | some (.oi _) =>
      match tail with
      | [] => cases (decode_of_missing_operand hl).symm.trans h
      | op :: _ =>
        cases (decode_of_two_cells hl).symm.trans h
        rw [lookupOpcode_buildsEncoding hl op, List.cons_append, List.singleton_append]

/-- The cells of every instruction decode to it, whatever follows them: its opcode finds its own row. -/
theorem decode_encode_append (i : Instr) (rest : List Int) : decode (encode i ++ rest) = .ok (i, rest) := by
  cases i <;> rfl

/-! ### From bits to an instruction and back (log entry 20) -/

/-- The cell of a pattern is that of the pattern's low W bits. -/
theorem cellOfBits_add_mul (W lo hi : Nat) : cellOfBits W (lo + 2 ^ W * hi) = cellOfBits W lo := by
  unfold cellOfBits wrap
  push_cast
  exact Int.add_mul_bmod_self_left ..

/-- Cutting two patterns of W bits, one above the other, gives the cell of each. -/
theorem cellsOfBits_add_mul {W nbits lo hi : Nat} (hlo : lo < 2 ^ W) (hn : lo + 2 ^ W * hi < 2 ^ nbits) :
    cellsOfBits W nbits (lo + 2 ^ W * hi) = [cellOfBits W lo, cellOfBits W hi] := by
  have hdiv : (lo + 2 ^ W * hi) / 2 ^ W = hi := by
    rw [Nat.add_mul_div_left _ _ (Nat.two_pow_pos W), Nat.div_eq_of_lt hlo, Nat.zero_add]
  rw [cellsOfBits, Nat.mod_eq_of_lt hn, cellOfBits_add_mul, hdiv]

/-- The bits of an instruction's cells are no more than its length (30 R47, R48). -/
theorem encodeBits_lt (W : Nat) (i : Instr) : encodeBits W i < 2 ^ i.bitLength W := by
  have hlo := bitsOfCell_lt W i.opcode
  unfold encodeBits Instr.bitLength encode
  match i.operand with
  | none => simpa [bitsOfCell] using hlo
  | some op =>
    have hhi := bitsOfCell_lt W op
    have hle : 2 ^ W * (bitsOfCell W op + 1) ≤ 2 ^ W * 2 ^ W := Nat.mul_le_mul_left _ hhi
    calc bitsOfCell W i.opcode + 2 ^ W * bitsOfCell W op
        < 2 ^ W * (bitsOfCell W op + 1) := by rw [Nat.mul_add_one]; omega
      _ ≤ 2 ^ W * 2 ^ W := hle
      _ = 2 ^ (W * 2) := by rw [Nat.mul_two, Nat.pow_add]

/-- The operand of a well-formed instruction fits a cell, and so does the 0 in place of a missing one (30 R49). -/
theorem Instr.operand_fits {W : Nat} {i : Instr} (hw : i.wellFormed W = true) : FitsCell W (i.operand.getD 0) := by
  cases i with
  | brk | inx | staX | dey | rts => exact fitsCell_zero W
  | lda | adc | sta | ldx | cmy | bne | ldy | jsr => exact of_decide_eq_true hw

/-- The bits of a well-formed instruction, cut into cells, are its opcode and its operand, or 0 where it has none. -/
theorem cellsOfBits_encodeBits {W : Nat} (hW : 32 ≤ W) {i : Instr} (hw : i.wellFormed W = true) :
    cellsOfBits W (i.bitLength W) (encodeBits W i) = [i.opcode, i.operand.getD 0] := by
  have h1 : 1 ≤ W := by omega
  rw [encodeBits, cellsOfBits_add_mul (bitsOfCell_lt W _) (encodeBits_lt W i),
    cellOfBits_bitsOfCell h1 (Laws.EncodeFits.opcode_fits hW i), cellOfBits_bitsOfCell h1 (Instr.operand_fits hw)]

/-- An instruction's encoding begins those two cells; after a one-cell instruction the 0 is left over. -/
theorem cells_eq_encode_append (i : Instr) : ∃ rest, [i.opcode, i.operand.getD 0] = encode i ++ rest := by
  unfold encode
  match i.operand with
  | none => exact ⟨[0], rfl⟩
  | some _ => exact ⟨[], rfl⟩

theorem decodeBits_encodeBits {W : Nat} (hW : 32 ≤ W) {i : Instr} (hw : i.wellFormed W = true) :
    decodeBits W (i.bitLength W) (encodeBits W i) = some i := by
  obtain ⟨rest, hc⟩ := cells_eq_encode_append i
  rw [decodeBits, cellsOfBits_encodeBits hW hw, hc, decode_encode_append]

/-- Settles O1: the bits are cut into the instruction's cells, and its cells decode to it. -/
theorem encodedInstructionsDecodeBack : Obligations.EncodedInstructionsDecodeBack :=
  fun _ hW i hw => ⟨decodeBits_encodeBits hW hw, decode_encode_append i⟩

/-- A word of the opcode map decodes to the instruction whose bits it is. -/
theorem decodeTableWord_of_bits {i : Instr} {nbits w : Nat} (hw : i.wellFormed 32 = true)
    (hn : i.bitLength 32 = nbits) (hb : encodeBits 32 i = w) : decodeTableWord nbits w = some i := by
  rw [decodeTableWord, ← hn, ← hb, decodeBits_encodeBits le_rfl hw]

/-- Settles O4: the five legal words are the bits of their instructions, and the decoder refuses the other two. -/
theorem sampleWordsDecode : Obligations.SampleWordsDecode :=
  ⟨decodeTableWord_of_bits (by decide) rfl (by decide), decodeTableWord_of_bits (by decide) rfl (by decide),
    decodeTableWord_of_bits (by decide) rfl (by decide), decodeTableWord_of_bits rfl rfl (by decide),
    decodeTableWord_of_bits rfl rfl (by decide), by decide, by decide⟩

/-! ### The legal opcodes (30 R52) -/

/-- The opcode table has a row for each of 0 to 12 and for no other value (30 R51, R52). -/
theorem lookupOpcode_eq_none : lookupOpcode v = none ↔ v < 0 ∨ 12 < v := by
  simp only [lookupOpcode, opcodeTable, Option.map_eq_none_iff, List.find?_eq_none, List.forall_mem_cons, beq_iff_eq,
    List.not_mem_nil, IsEmpty.forall_iff, implies_true, and_true]
  omega

theorem decode_eq_opcodeNotFound : decode (v :: rest) = .error (.opcodeNotFound v) ↔ lookupOpcode v = none := by
  refine ⟨fun h => ?_, decode_of_no_opcode⟩
  match hl : lookupOpcode v with
  | none => rfl
  | some (.o _) => cases (decode_of_one_cell hl).symm.trans h
  | some (.oi _) =>
    match rest with
    | [] => cases (decode_of_missing_operand hl).symm.trans h
    | _ :: _ => cases (decode_of_two_cells hl).symm.trans h

/-- An opcode with a row decodes with any operand cell after it. -/
theorem decode_of_opcode (hl : lookupOpcode v ≠ none) (op : Int) (rest : List Int) :
    ∃ i rest', decode (v :: op :: rest) = .ok (i, rest') := by
  match h : lookupOpcode v with
  | none => exact absurd h hl
  | some (.o i) => exact ⟨i, op :: rest, decode_of_one_cell h⟩
  | some (.oi mk) => exact ⟨mk op, rest, decode_of_two_cells h⟩

/-- Settles O3: the values without a row of the opcode table are those outside 0 to 12, and the decoder and the step
refuse exactly these. -/
theorem onlyOpcodesZeroToTwelveAreLegal : Obligations.OnlyOpcodesZeroToTwelveAreLegal := by
  refine ⟨fun v rest => decode_eq_opcodeNotFound.trans lookupOpcode_eq_none, fun v op rest h0 h12 => ?_,
    fun s v hv hat => Machine.step_at_no_opcode (lookupOpcode_eq_none.mpr hv) hat⟩
  exact decode_of_opcode (fun hn => by have := lookupOpcode_eq_none.mp hn; omega) op rest

end Sys2Proof
end

/-! ## The run loop and the fetch of a step (40 sections 1, 4 and 6) -/

section
namespace Sys2Proof.Machine

/-! ### The loop check's order: halted before pc >= N (40 R58, D14) -/

theorem State.loopCheck_of_halted {s : State} (hh : s.halted = true) : s.loopCheck = some .halted :=
  if_pos hh

theorem State.loopCheck_of_past_end {s : State} (hh : s.halted = false) (hp : s.cfg.memCells ≤ s.pc) :
    s.loopCheck = some .outOfBounds :=
  (if_neg (by simp [hh])).trans (if_pos hp)

/-- The loop check stops a core in HALTED or in OUT_OF_BOUNDS, each for its one reason. -/
theorem State.loopCheck_some {s : State} {c : CtrlState} (hl : s.loopCheck = some c) :
    (c = .halted ∧ s.halted = true) ∨ (c = .outOfBounds ∧ s.halted = false ∧ s.cfg.memCells ≤ s.pc) := by
  cases hh : s.halted with
  | true =>
    cases (State.loopCheck_of_halted hh).symm.trans hl
    exact .inl ⟨rfl, rfl⟩
  | false =>
    obtain hp | hp := Nat.lt_or_ge s.pc s.cfg.memCells
    · cases (State.loopCheck_none.mpr ⟨hh, hp⟩).symm.trans hl
    · cases (State.loopCheck_of_past_end hh hp).symm.trans hl
      exact .inr ⟨rfl, rfl, hp⟩

/-- A running core that passes its loop check stands at its opcode cell. -/
theorem State.at_opcodeCell {s : State} (hr : s.ctrl.running = true) (hl : s.loopCheck = none) :
    s.At s.opcodeCell :=
  have ⟨hh, hp⟩ := State.loopCheck_none.mp hl
  ⟨hr, hh, hp, rfl⟩

theorem CtrlState.not_running_of_terminal {c : CtrlState} (h : c.terminal = true) : c.running = false := by
  cases c with
  | halted | outOfBounds | faulted => rfl
  | idle | fetch | decode | operand | execute => cases h

/-- Settles O5: the decoder succeeds at a one-cell row, or at a two-cell row whose operand cell is inside memory, and
there the step runs the row's instruction. -/
theorem stepRunsTheDecodedInstruction : Obligations.StepRunsTheDecodedInstruction := by
  intro s i rest hr hh hp hd
  have hat : s.At s.opcodeCell := ⟨hr, hh, hp, rfl⟩
  rw [State.fetchCells] at hd
  match hl : lookupOpcode s.opcodeCell with
  | none => cases (decode_of_no_opcode hl).symm.trans hd
  | some (.o _) =>
    cases (decode_of_one_cell hl).symm.trans hd
    exact step_at_one_cell hl hat
  | some (.oi _) =>
    by_cases hp1 : s.pc + 1 < s.cfg.memCells
    · rw [if_pos hp1] at hd
      cases (decode_of_two_cells hl).symm.trans hd
      exact step_at_two_cells hl hat hp1
    · rw [if_neg hp1] at hd
      cases (decode_of_missing_operand hl).symm.trans hd

/-- At an opcode cell the step faults in the fetch or runs what was fetched. -/
theorem step_at {s : State} {v : Int} (hat : s.At v) :
    (∃ e, s.fetchInstr = .error e ∧ step s = .next (s.enterFault e)) ∨
      ∃ i, s.fetchInstr = .ok i ∧ step s = exec i s := by
  have ⟨hr, _⟩ := hat
  cases hf : s.fetchInstr with
  | error e => exact .inl ⟨e, rfl, step_of_fetch_error hr hat.loopCheck hf⟩
  | ok i => exact .inr ⟨i, rfl, step_of_fetch_ok hr hat.loopCheck hf⟩

/-- Settles O6: RUN leaves IDLE, the loop check stops the core in this order, and past it the step fetches. -/
theorem loopTestsHaltedThenPcThenSteps : Obligations.LoopTestsHaltedThenPcThenSteps := by
  refine ⟨fun s hc => ?run, fun s hr hh => ?halted, fun s hr hh hp => ?outOfBounds, fun s v hat => ?step,
    fun s hc => ?terminal⟩
  case run => rw [State.hostRun, hc]; rfl
  case halted => exact step_of_stop hr (State.loopCheck_of_halted hh)
  case outOfBounds => exact step_of_stop hr (State.loopCheck_of_past_end hh hp)
  case step => exact step_at hat
  case terminal => exact step_of_not_running (CtrlState.not_running_of_terminal hc)

/-- Past its loop check a step commits or faults, with the code of a fatal error. -/
theorem step_ctrl_of_loopCheck_none {s t : State} (hr : s.ctrl.running = true) (hl : s.loopCheck = none)
    (ht : step s = .next t) : t.ctrl = .fetch ∨ ∃ e, t = s.enterFault e := by
  obtain ⟨e, -, hs⟩ | ⟨i, -, hs⟩ := step_at (State.at_opcodeCell hr hl)
  · cases hs.symm.trans ht
    exact .inr ⟨e, rfl⟩
  · exact exec_ctrl (hs ▸ ht)

/-- Settles O7: the loop check's two stops and its pass exclude each other, and past it a step commits or faults. -/
theorem runsEndInExactlyOneTerminalState : Obligations.RunsEndInExactlyOneTerminalState := by
  intro s t hr ht
  cases hl : s.loopCheck with
  | some c =>
    cases (step_of_stop hr hl).symm.trans ht
    obtain ⟨rfl, hh⟩ | ⟨rfl, hh, hp⟩ := State.loopCheck_some hl
    · simp [hh]
    · simp [hh, hp]
  | none =>
    obtain ⟨hh, hp⟩ := State.loopCheck_none.mp hl
    obtain hc | ⟨e, rfl⟩ := step_ctrl_of_loopCheck_none hr hl ht
    · simp [hc, hh, hp]
    · simp [hh, hp, e.code_ne_none]

/-- The opcodes of format OI (30 R51). -/
theorem lookupOpcode_two_cells {v : Int} (hv : v ∈ [1, 2, 3, 4, 6, 7, 10, 11]) :
    ∃ mk, lookupOpcode v = some (.oi mk) := by
  simp only [List.mem_cons, List.not_mem_nil, or_false] at hv
  obtain rfl | rfl | rfl | rfl | rfl | rfl | rfl | rfl := hv <;> exact ⟨_, rfl⟩

/-- Settles O8: each of these opcodes has a two-cell row, whose operand is fetched or found missing before anything
runs. -/
theorem operandCellIsAlwaysFetched : Obligations.OperandCellIsAlwaysFetched := by
  intro s v hv hat
  obtain ⟨mk, hl⟩ := lookupOpcode_two_cells hv
  refine ⟨fun hp => ⟨_, decode_of_two_cells hl, step_at_two_cells hl hat hp⟩, fun hp => ⟨?_, ?_⟩⟩
  · obtain ⟨-, hpc⟩ := State.loopCheck_none.mp hat.loopCheck
    omega
  · exact step_at_missing_operand hl hat hp

/-- Settles O9: a core that does not run stays; a running one stops, enters a fault or runs an instruction, and every
instruction answers. -/
theorem everyStepAnswersANextState : Obligations.EveryStepAnswersANextState := by
  intro s
  cases hr : s.ctrl.running with
  | false => exact ⟨s, step_of_not_running hr⟩
  | true =>
    obtain ⟨c, -, hs⟩ | ⟨-, e, -, hs⟩ | ⟨-, i, -, hs⟩ := step_cases hr
    · exact ⟨_, hs⟩
    · exact ⟨_, hs⟩
    · exact hs ▸ exec_answers i s

/-! ### The next pc (40 R60, R65) -/

/-- A step that returns to FETCH committed an instruction of the opcode it stood at. -/
theorem step_committed {s t : State} {v : Int} (hat : s.At v) (ht : step s = .next t) (hc : t.ctrl = .fetch) :
    ∃ i, i.opcode = v ∧ t = (s.execCommit i).setCtrl .fetch := by
  obtain ⟨e, -, hs⟩ | ⟨i, hi, hs⟩ := step_at hat
  · cases hs.symm.trans ht
    cases hc
  · obtain ⟨-, hcommit⟩ := exec_committed (hs ▸ ht) hc
    obtain ⟨-, -, -, hv⟩ := hat
    exact ⟨i, (State.fetchInstr_opcode hi).trans hv, hcommit⟩

theorem State.execCommit_pc_seq1 {s : State} {i : Instr} (h : i.opcode ∈ [0, 5, 8, 9]) :
    (s.execCommit i).pc = s.pc + 1 := by
  cases i with
  | brk | inx | staX | dey => rfl
  | lda | adc | sta | ldx | cmy | bne | ldy | jsr | rts => simp [Instr.opcode] at h

theorem State.execCommit_pc_seq2 {s : State} {i : Instr} (h : i.opcode ∈ [1, 2, 3, 4, 6, 10]) :
    (s.execCommit i).pc = s.pc + 2 := by
  cases i with
  | lda | adc | sta | ldx | cmy | ldy => rfl
  | brk | inx | bne | staX | dey | jsr | rts => simp [Instr.opcode] at h

section Committed

variable {s t : State} {v : Int}

theorem step_pc_seq1 (hv : v ∈ [0, 5, 8, 9]) (hat : s.At v) (ht : step s = .next t) (hc : t.ctrl = .fetch) :
    t.pc = s.pc + 1 := by
  obtain ⟨i, rfl, rfl⟩ := step_committed hat ht hc
  exact State.execCommit_pc_seq1 hv

theorem step_pc_seq2 (hv : v ∈ [1, 2, 3, 4, 6, 10]) (hat : s.At v) (ht : step s = .next t) (hc : t.ctrl = .fetch) :
    t.pc = s.pc + 2 := by
  obtain ⟨i, rfl, rfl⟩ := step_committed hat ht hc
  exact State.execCommit_pc_seq2 hv

/-- BRANCH: a taken branch that returns to FETCH had a target that is no negative number (60 R95). -/
theorem step_pc_bne (hat : s.At 7) (ht : step s = .next t) (hc : t.ctrl = .fetch) :
    (t.pc : Int) = if s.flags = false then (s.pc : Int) + s.mem.read (s.pc + 1) else (s.pc : Int) + 2 := by
  obtain ⟨hn, rfl⟩ := step_committed_two_cells (f := .bne) rfl hat ht hc
  cases hf : s.flags with
  | true => simp [State.execCommit, hf]
  | false =>
    have h0 : 0 ≤ (s.pc : Int) + s.mem.read (s.pc + 1) := by simpa [State.execFault, hf] using hn
    simp [State.execCommit, hf, h0]

theorem step_pc_jsr (hat : s.At 11) (ht : step s = .next t) (hc : t.ctrl = .fetch) :
    t.pc = callTarget (s.mem.read (s.pc + 1)) := by
  obtain ⟨-, rfl⟩ := step_committed_two_cells (f := .jsr) rfl hat ht hc
  rfl

/-- RET: an RTS that returns to FETCH popped no negative number (60 R95). -/
theorem step_pc_rts (hat : s.At 12) (ht : step s = .next t) (hc : t.ctrl = .fetch) :
    (t.pc : Int) = s.mem.read (s.sp + 1) := by
  obtain ⟨hn, rfl⟩ := step_committed_one_cell (i := .rts) rfl hat ht hc
  obtain ⟨-, h0⟩ : _ ∧ 0 ≤ s.mem.read (s.sp + 1) := by simpa [State.execFault] using hn
  exact Int.toNat_of_nonneg h0

end Committed

/-- A step of a core that faults leaves pc at the faulting instruction (60 R98). -/
theorem step_pc_of_faulted {s t : State} (ht : step s = .next t) (hc : t.ctrl = .faulted) : t.pc = s.pc := by
  obtain ⟨c, rfl⟩ | ⟨e, rfl⟩ | ⟨-, -, i, -, hx⟩ := step_next_cases ht
  · rfl
  · rfl
  · obtain ⟨-, rfl⟩ | ⟨e, -, rfl⟩ := exec_cases hx
    · cases hc
    · rfl

theorem callTarget_eq_max (op : Int) : (callTarget op : Int) = max (op - 1) 0 :=
  Int.toNat_of_nonneg (le_max_right _ _)

/-- Settles O10: each rule's next pc, and the faulting pc. -/
theorem nextPcIsTheInstructionsOwn : Obligations.NextPcIsTheInstructionsOwn := by
  intro s t v hat ht
  refine ⟨step_pc_of_faulted ht, fun hc => ⟨fun hv => step_pc_seq1 hv hat ht hc, fun hv => step_pc_seq2 hv hat ht hc,
    ?bne, ?jsr, ?rts⟩⟩
  case bne => rintro rfl; exact step_pc_bne hat ht hc
  case jsr => rintro rfl; rw [step_pc_jsr hat ht hc, callTarget_eq_max]
  case rts => rintro rfl; exact step_pc_rts hat ht hc

/-- The call target max(op - 1, 0) leaves room for two more cells below 2^(W-1) (40 R65 CALL). -/
theorem callTarget_add_two_le {W : Nat} (hW : 2 ≤ W) {op : Int} (hop : FitsCell W op) :
    callTarget op + 2 ≤ 2 ^ (W - 1) := by
  have hp : 2 ^ 1 ≤ 2 ^ (W - 1) := Nat.pow_le_pow_right (by decide) (by omega)
  unfold FitsCell at hop
  unfold callTarget
  omega

/-- Settles O11: the step keeps the invariant, of which the pc's width is a part; the ranges follow from each rule's
next pc and pc < N. -/
theorem committedPcFitsItsRegister : Obligations.CommittedPcFitsItsRegister := by
  intro s t v hinv hat ht
  obtain ⟨-, hp⟩ := State.loopCheck_none.mp hat.loopCheck
  refine ⟨?width, fun hv hc => ?seq1, fun hv hc => ?seq2, ?call⟩
  case width => exact step_cfg ht ▸ (everyStepKeepsTheInvariant s t hinv ht).pc_fits
  case seq1 => rw [step_pc_seq1 hv hat ht hc]; omega
  case seq2 => rw [step_pc_seq2 hv hat ht hc]; omega
  case call =>
    rintro rfl hc
    rw [step_pc_jsr hat ht hc]
    exact callTarget_add_two_le (le_trans (by decide) hinv.cfg_valid.1) (hinv.mem_fits.read _)

end Sys2Proof.Machine
end

/-! ## The decoder's control signals and the datapath (40 sections 3 and 4) -/

section
namespace Sys2Proof.Machine

/-- The decoder has a row for exactly the legal opcode values (40 R63, R64). -/
theorem controlOf_eq_none {v : Int} : controlOf v = none ↔ v < 0 ∨ 12 < v := by
  simp only [controlOf, controlTable, Option.map_eq_none_iff, List.find?_eq_none, List.forall_mem_cons, beq_iff_eq,
    List.not_mem_nil, IsEmpty.forall_iff, implies_true, and_true]
  omega

/-! ### The data access keeps halted, so the datapath's write of halted changes nothing unless the row sets it -/

/-- A rule's store and next pc, and the same through the memory port of the datapath. -/
theorem bind_setPc_eq_port {x : Except FatalError State} {b : Bool} (hx : ∀ t, x = .ok t → t.halted = b) (p : Nat) :
    (x >>= fun t => .ok (t.setPc p)) =
      ((x >>= fun t => .ok (t, (0 : Int))) >>= fun m => .ok ((m.1.setPc p).setHalted b) : Except FatalError State) := by
  cases x with
  | error e => rfl
  | ok t => cases hx t rfl; rfl

theorem State.memWrite_halted {s t : State} {addr v : Int} (h : s.memWrite addr v = .ok t) : t.halted = s.halted := by
  obtain ⟨-, -, rfl⟩ := State.memWrite_ok h
  rfl

theorem State.push_returnCell_halted {s t : State} (h : s.returnCell.1.push s.returnCell.2 = .ok t) :
    t.halted = s.halted := by
  obtain ⟨-, -, rfl⟩ := State.push_ok h
  exact s.returnCell_fst_halted

/-- RTS's rule, and the same with the datapath's write of halted. -/
theorem State.pop_setPc_eq_port (s : State) :
    (s.pop >>= fun r => pcOfTarget r.2 >>= fun p => .ok (r.1.setPc p)) =
      s.pop >>= fun m => pcOfTarget m.2 >>= fun p => .ok ((m.1.setPc p).setHalted s.halted) := by
  cases hp : s.pop with
  | error e => rfl
  | ok r =>
    obtain ⟨u, v⟩ := r
    obtain ⟨-, rfl, -⟩ := State.pop_ok hp
    rfl

/-- EQ's result as the 1-bit value the write port takes for flags (00 R10). -/
theorem aluEq_ne_zero (u v : Int) : ((if aluEq u v then (1 : Int) else 0) != 0) = aluEq u v := by
  cases aluEq u v <;> rfl

/-! ### Each row is its instruction's rule -/

/-- The row of an instruction's opcode has the instruction's length and, with op in the operand latch, its effect. -/
def Control.Implements (c : Control) (i : Instr) (op : Int) : Prop :=
  controlOf i.opcode = some c ∧ c.length = (encode i).length ∧ ∀ s : State, exec i s = s.conclude (s.datapath c op)

theorem exists_control_of_no_operand {i : Instr} (hi : i.operand = none) (op : Int) :
    ∃ c : Control, c.Implements i op := by
  cases i with
  | brk => exact ⟨_, rfl, rfl, fun s => by rw [State.datapath, Bool.or_true]; rfl⟩
  | inx | dey => exact ⟨_, rfl, rfl, fun s => by rw [State.datapath, Bool.or_false]; rfl⟩
  | staX =>
    refine ⟨_, rfl, rfl, fun s => ?_⟩
    rw [State.datapath, Bool.or_false]
    exact congrArg s.conclude (bind_setPc_eq_port (fun t => State.memWrite_halted) s.seq1)
  | rts =>
    refine ⟨_, rfl, rfl, fun s => ?_⟩
    rw [State.datapath, Bool.or_false]
    exact congrArg s.conclude s.pop_setPc_eq_port
  | lda | adc | sta | ldx | cmy | bne | ldy | jsr => cases hi

theorem exists_control_of_operand {i : Instr} {op : Int} (hi : i.operand = some op) :
    ∃ c : Control, c.Implements i op := by
  cases i with
  | lda | adc | ldx | ldy | bne =>
    cases hi
    exact ⟨_, rfl, rfl, fun s => by rw [State.datapath, Bool.or_false]; rfl⟩
  | cmy =>
    cases hi
    refine ⟨_, rfl, rfl, fun s => ?_⟩
    rw [State.datapath, Bool.or_false]
    exact congrArg (fun b => s.conclude (.ok ((s.setFlags b).setPc s.seq2))) (aluEq_ne_zero op s.y).symm
  | sta =>
    cases hi
    refine ⟨_, rfl, rfl, fun s => ?_⟩
    rw [State.datapath, Bool.or_false]
    exact congrArg s.conclude (bind_setPc_eq_port (fun t => State.memWrite_halted) s.seq2)
  | jsr =>
    cases hi
    refine ⟨_, rfl, rfl, fun s => ?_⟩
    rw [State.datapath, Bool.or_false]
    exact congrArg s.conclude (bind_setPc_eq_port (fun t => State.push_returnCell_halted) (callTarget op))
  | brk | inx | staX | dey | rts => cases hi

theorem exists_control {i : Instr} {op : Int} (hi : i.operand = none ∨ i.operand = some op) :
    ∃ c : Control, c.Implements i op :=
  hi.elim (fun h => exists_control_of_no_operand h op) exists_control_of_operand

/-- Settles O42: every instruction's row does what its rule says, and only the legal opcodes have a row. -/
theorem controlSignalsGiveTheInstructionRules : Obligations.ControlSignalsGiveTheInstructionRules := by
  refine ⟨fun i op s hi => ?_, fun v => controlOf_eq_none⟩
  obtain ⟨c, hc, hlen, hexec⟩ := exists_control hi
  exact ⟨c, hc, hlen, hexec s⟩

end Sys2Proof.Machine
end

/-! ## The control FSM's phases and the step (40 R62, R71) -/

section
namespace Sys2Proof.Machine

/-! ### Which running state a core is in changes nothing a step does (log entry 5) -/

theorem State.returnCell_setCtrl (s : State) (c : CtrlState) :
    (s.setCtrl c).returnCell = (s.returnCell.1.setCtrl c, s.returnCell.2) := by
  by_cases hf : FitsCell s.cfg.wordBits ((s.pc : Int) + 2)
  · rw [State.returnCell_of_fits hf, State.returnCell_of_fits (s := s.setCtrl c) hf]
    rfl
  · rw [State.returnCell_of_not_fits hf, State.returnCell_of_not_fits (s := s.setCtrl c) hf]
    rfl

theorem State.execFault_setCtrl (i : Instr) (s : State) (c : CtrlState) :
    (s.setCtrl c).execFault i = s.execFault i := by
  cases i <;> rfl

theorem State.execCommit_setCtrl (i : Instr) (s : State) (c : CtrlState) :
    (s.setCtrl c).execCommit i = (s.execCommit i).setCtrl c := by
  cases i with
  | jsr op => simp only [State.execCommit, State.returnCell_setCtrl]; rfl
  | _ => rfl

theorem exec_setCtrl (i : Instr) (s : State) (c : CtrlState) : exec i (s.setCtrl c) = exec i s := by
  have hf := State.execFault_setCtrl i s c
  cases he : s.execFault i with
  | none =>
    rw [exec_of_no_fault he, exec_of_no_fault (hf.trans he), State.execCommit_setCtrl]
    rfl
  | some e =>
    rw [exec_of_fault he, exec_of_fault (hf.trans he)]
    rfl

theorem step_setCtrl {s : State} {c : CtrlState} (hr : s.ctrl.running = true) (hc : c.running = true) :
    step (s.setCtrl c) = step s := by
  obtain ⟨c', hl, hs⟩ | ⟨hl, e, he, hs⟩ | ⟨hl, i, hi, hs⟩ := step_cases hr
  · exact (step_of_stop (s := s.setCtrl c) hc hl).trans hs.symm
  · exact (step_of_fetch_error (s := s.setCtrl c) hc hl he).trans hs.symm
  · exact (step_of_fetch_ok (s := s.setCtrl c) hc hl hi).trans ((exec_setCtrl i s c).trans hs.symm)

/-! ### The phases, and the latches they are consistent with -/

namespace FsmState

variable {f : FsmState}

theorem phase_of_not_running (h : f.arch.ctrl.running = false) : f.phase = f := by
  unfold phase
  cases hc : f.arch.ctrl with
  | idle | halted | outOfBounds | faulted => rfl
  | fetch | decode | operand | execute => rw [hc] at h; cases h

theorem phase_of_fetch (h : f.arch.ctrl = .fetch) : f.phase = f.fetchPhase := by
  rw [phase, h]

theorem phase_of_decode (h : f.arch.ctrl = .decode) : f.phase = f.decodePhase := by
  rw [phase, h]

theorem phase_of_operand (h : f.arch.ctrl = .operand) : f.phase = f.operandPhase := by
  rw [phase, h]

theorem phase_of_execute (h : f.arch.ctrl = .execute) : f.phase = f.executePhase := by
  rw [phase, h]

theorem fetchPhase_of_stop {c : CtrlState} (hl : f.arch.loopCheck = some c) :
    f.fetchPhase = f.withArch (f.arch.setCtrl c) := by
  rw [fetchPhase, hl]

theorem fetchPhase_of_pass (hl : f.arch.loopCheck = none) :
    f.fetchPhase = { f.withArch (f.arch.setCtrl .decode) with ir := f.arch.opcodeCell } := by
  rw [fetchPhase, hl]

theorem decodePhase_of_none (hk : controlOf f.ir = none) :
    f.decodePhase = f.withArch (f.arch.enterFault (.opcodeNotFound f.ir)) := by
  rw [decodePhase, hk]

theorem decodePhase_of_some {k : Control} (hk : controlOf f.ir = some k) :
    f.decodePhase = f.withArch (f.arch.setCtrl (if k.length = 2 then .operand else .execute)) := by
  rw [decodePhase, hk]

theorem operandPhase_of_error {e : FatalError} (hm : f.arch.memRead ((f.arch.pc : Int) + 1) = .error e) :
    f.operandPhase = f.withArch (f.arch.enterFault e) := by
  rw [operandPhase, hm]

theorem operandPhase_of_ok {v : Int} (hm : f.arch.memRead ((f.arch.pc : Int) + 1) = .ok v) :
    f.operandPhase = { f.withArch (f.arch.setCtrl .execute) with opr := v } := by
  rw [operandPhase, hm]

/-- EXECUTE commits or faults as the row's datapath concludes (40 R71). -/
theorem conclude_executePhase {k : Control} (hk : controlOf f.ir = some k) :
    f.arch.conclude (f.arch.datapath k f.opr) = .next f.executePhase.arch := by
  rw [executePhase, hk]
  cases hd : f.arch.datapath k f.opr <;> simp only [hd] <;> rfl

/-- Outside DECODE, OPERAND and EXECUTE nothing is asked of the latches (10 R27). -/
theorem consistent_of_no_latch (h : f.arch.ctrl = .fetch ∨ f.arch.ctrl.running = false) : f.Consistent := by
  unfold Consistent
  cases hc : f.arch.ctrl with
  | idle | fetch | halted | outOfBounds | faulted => trivial
  | decode | operand | execute => simp [hc, CtrlState.running] at h

theorem consistent_decode (h : f.arch.ctrl = .decode) :
    f.Consistent ↔ f.arch.loopCheck = none ∧ f.ir = f.arch.opcodeCell := by
  rw [Consistent, h]

theorem consistent_operand (h : f.arch.ctrl = .operand) :
    f.Consistent ↔ f.arch.loopCheck = none ∧ f.ir = f.arch.opcodeCell ∧
      ∃ k, controlOf f.ir = some k ∧ k.length = 2 := by
  rw [Consistent, h]

theorem consistent_execute (h : f.arch.ctrl = .execute) :
    f.Consistent ↔ f.arch.loopCheck = none ∧ f.ir = f.arch.opcodeCell ∧ ∃ k, controlOf f.ir = some k ∧
      (k.length = 2 → f.arch.pc + 1 < f.arch.cfg.memCells ∧ f.opr = f.arch.mem.read (f.arch.pc + 1)) := by
  rw [Consistent, h]

end FsmState

/-! ### The decoder's row at an opcode cell and the instruction the step runs there -/

/-- The decoder's rows and the opcode table are of the same values. -/
theorem controlOf_eq_none_iff_lookupOpcode {v : Int} : controlOf v = none ↔ lookupOpcode v = none :=
  controlOf_eq_none.trans lookupOpcode_eq_none.symm

/-- The row at the opcode cell of an instruction's encoding is the row of the instruction. -/
theorem Control.implements_of_encode {k : Control} {i : Instr} {v op : Int} {cells : List Int}
    (henc : encode i = v :: cells) (hcells : cells = [] ∨ cells = [op]) (hk : controlOf v = some k) :
    k.Implements i op := by
  obtain ⟨rfl, hop⟩ := List.cons.inj henc
  have hi : i.operand = none ∨ i.operand = some op :=
    hcells.imp (fun h => Option.toList_eq_nil_iff.mp (hop.trans h))
      fun h => Option.toList_eq_singleton_iff.mp (hop.trans h)
  obtain ⟨c, hc⟩ := exists_control hi
  have ⟨hrow, _⟩ := hc
  cases hk.symm.trans hrow
  exact hc

/-- A row of length 2 is that of a two-cell opcode. -/
theorem lookupOpcode_of_control_length {v : Int} {k : Control} (hk : controlOf v = some k) (hlen : k.length = 2) :
    ∃ mk, lookupOpcode v = some (.oi mk) := by
  match hl : lookupOpcode v with
  | none => cases (controlOf_eq_none_iff_lookupOpcode.mpr hl).symm.trans hk
  | some (.o _) =>
    have henc := lookupOpcode_buildsEncoding hl
    obtain ⟨-, h1, -⟩ := Control.implements_of_encode (op := 0) henc (.inl rfl) hk
    rw [henc, hlen] at h1
    cases h1
  | some (.oi mk) => exact ⟨mk, rfl⟩

/-- The step at an opcode cell concludes the datapath under the cell's row, with the operand latch holding the operand
cell where the row has one. -/
theorem step_eq_conclude_datapath {s : State} {v op : Int} {k : Control} (hat : s.At v) (hk : controlOf v = some k)
    (hop : k.length = 2 → s.pc + 1 < s.cfg.memCells ∧ op = s.mem.read (s.pc + 1)) :
    step s = s.conclude (s.datapath k op) := by
  match hl : lookupOpcode v with
  | none => cases (controlOf_eq_none_iff_lookupOpcode.mpr hl).symm.trans hk
  | some (.o _) =>
    obtain ⟨-, -, hexec⟩ := Control.implements_of_encode (op := op) (lookupOpcode_buildsEncoding hl) (.inl rfl) hk
    rw [step_at_one_cell hl hat, hexec]
  | some (.oi _) =>
    have henc := lookupOpcode_buildsEncoding hl op
    obtain ⟨-, hlen, hexec⟩ := Control.implements_of_encode henc (.inr rfl) hk
    obtain ⟨hp, rfl⟩ := hop (by rw [hlen, henc]; rfl)
    rw [step_at_two_cells hl hat hp, hexec]

/-! ### One phase finishes the step, or moves on to a later phase -/

/-- How many phases a running core has at most before its step is over (40 R62). -/
def CtrlState.phasesLeft : CtrlState → Nat
  | .fetch => 4
  | .decode => 3
  | .operand => 2
  | .execute => 1
  | .idle | .halted | .outOfBounds | .faulted => 0

theorem CtrlState.phasesLeft_pos {c : CtrlState} (h : c.running = true) : 0 < c.phasesLeft := by
  cases c with
  | fetch | decode | operand | execute => exact Nat.succ_pos _
  | idle | halted | outOfBounds | faulted => cases h

theorem CtrlState.phasesLeft_le (c : CtrlState) : c.phasesLeft ≤ 4 := by
  cases c <;> decide

/-- The states between FETCH and the end of the step. -/
abbrev CtrlState.Between (c : CtrlState) : Prop :=
  c ∈ [CtrlState.decode, CtrlState.operand, CtrlState.execute]

theorem CtrlState.Between.running {c : CtrlState} (h : c.Between) : c.running = true := by
  simp only [CtrlState.Between, List.mem_cons, List.not_mem_nil, or_false] at h
  obtain rfl | rfl | rfl := h <;> rfl

/-- A step of a running core ends where nothing is asked of the latches. -/
theorem step_ctrl {s t : State} (hr : s.ctrl.running = true) (ht : step s = .next t) :
    t.ctrl = .fetch ∨ t.ctrl.running = false := by
  cases hl : s.loopCheck with
  | some c =>
    cases (step_of_stop hr hl).symm.trans ht
    obtain ⟨rfl, -⟩ | ⟨rfl, -, -⟩ := State.loopCheck_some hl <;> exact .inr rfl
  | none =>
    obtain hc | ⟨e, rfl⟩ := step_ctrl_of_loopCheck_none hr hl ht
    · exact .inl hc
    · exact .inr rfl

namespace FsmState

variable {f : FsmState}

/-- The phase reaches the state that the step gives. -/
def Finishes (f : FsmState) : Prop := step f.arch = .next f.phase.arch

/-- The phase changes ctrl_state alone, to that of a later phase, and keeps the latches consistent. -/
def Advances (f : FsmState) : Prop :=
  ∃ c : CtrlState, c.Between ∧ c.phasesLeft < f.arch.ctrl.phasesLeft ∧ f.phase.arch = f.arch.setCtrl c ∧
    f.phase.Consistent

theorem fetch_finishes_or_advances (hc : f.arch.ctrl = .fetch) : f.Finishes ∨ f.Advances := by
  have hr : f.arch.ctrl.running = true := hc ▸ rfl
  cases hl : f.arch.loopCheck with
  | some c =>
    rw [Finishes, phase_of_fetch hc, fetchPhase_of_stop hl]
    exact .inl (step_of_stop hr hl)
  | none =>
    rw [Advances, phase_of_fetch hc, fetchPhase_of_pass hl, hc]
    exact .inr ⟨.decode, by decide, by decide, rfl, (consistent_decode rfl).mpr ⟨hl, rfl⟩⟩

theorem decode_finishes_or_advances (hc : f.arch.ctrl = .decode) (hf : f.Consistent) : f.Finishes ∨ f.Advances := by
  have hr : f.arch.ctrl.running = true := hc ▸ rfl
  obtain ⟨hl, hir⟩ := (consistent_decode hc).mp hf
  cases hk : controlOf f.ir with
  | none =>
    have hnone := controlOf_eq_none_iff_lookupOpcode.mp (hir ▸ hk)
    rw [Finishes, phase_of_decode hc, decodePhase_of_none hk, hir]
    exact .inl (step_at_no_opcode hnone (State.at_opcodeCell hr hl))
  | some k =>
    rw [Advances, phase_of_decode hc, decodePhase_of_some hk, hc]
    by_cases hlen : k.length = 2
    · rw [if_pos hlen]
      exact .inr ⟨.operand, by decide, by decide, rfl, (consistent_operand rfl).mpr ⟨hl, hir, k, hk, hlen⟩⟩
    · rw [if_neg hlen]
      exact .inr ⟨.execute, by decide, by decide, rfl,
        (consistent_execute rfl).mpr ⟨hl, hir, k, hk, fun h2 => absurd h2 hlen⟩⟩

theorem operand_finishes_or_advances (hc : f.arch.ctrl = .operand) (hf : f.Consistent) :
    f.Finishes ∨ f.Advances := by
  have hr : f.arch.ctrl.running = true := hc ▸ rfl
  obtain ⟨hl, hir, k, hk, hlen⟩ := (consistent_operand hc).mp hf
  cases hm : f.arch.memRead ((f.arch.pc : Int) + 1) with
  | error e =>
    obtain ⟨hout, rfl⟩ := State.memRead_error hm
    obtain ⟨mk, hlook⟩ := lookupOpcode_of_control_length (hir ▸ hk) hlen
    rw [Finishes, phase_of_operand hc, operandPhase_of_error hm]
    exact .inl (step_at_missing_operand hlook (State.at_opcodeCell hr hl) (by omega))
  | ok v =>
    obtain ⟨-, hin, rfl⟩ := State.memRead_ok hm
    rw [Advances, phase_of_operand hc, operandPhase_of_ok hm, hc]
    exact .inr ⟨.execute, by decide, by decide, rfl,
      (consistent_execute rfl).mpr ⟨hl, hir, k, hk, fun _ => ⟨Int.ofNat_lt.mp hin, rfl⟩⟩⟩

theorem execute_finishes (hc : f.arch.ctrl = .execute) (hf : f.Consistent) : f.Finishes := by
  have hr : f.arch.ctrl.running = true := hc ▸ rfl
  obtain ⟨hl, hir, k, hk, hopr⟩ := (consistent_execute hc).mp hf
  rw [Finishes, phase_of_execute hc, ← conclude_executePhase hk]
  exact step_eq_conclude_datapath (State.at_opcodeCell hr hl) (hir ▸ hk) hopr

theorem finishes_or_advances (hr : f.arch.ctrl.running = true) (hf : f.Consistent) : f.Finishes ∨ f.Advances := by
  cases hc : f.arch.ctrl with
  | fetch => exact fetch_finishes_or_advances hc
  | decode => exact decode_finishes_or_advances hc hf
  | operand => exact operand_finishes_or_advances hc hf
  | execute => exact .inl (execute_finishes hc hf)
  | idle | halted | outOfBounds | faulted => rw [hc] at hr; cases hr

/-- Settles O43: a core that does not run keeps its latches and its state, and a phase of a running one ends the step,
where nothing is asked of the latches, or moves on with consistent ones. -/
theorem phasesKeepTheLatchesConsistent : Obligations.PhasesKeepTheLatchesConsistent := by
  intro f hf
  cases hr : f.arch.ctrl.running with
  | false => rwa [phase_of_not_running hr]
  | true =>
    obtain hfin | ⟨-, -, -, -, hcons⟩ := finishes_or_advances hr hf
    · exact consistent_of_no_latch (step_ctrl hr hfin)
    · exact hcons

/-! ### From any phase to the end of the step -/

/-- At most n phases from f reach t, and those between change ctrl_state alone. -/
def Reaches (f : FsmState) (t : State) (n : Nat) : Prop :=
  ∃ k, 1 ≤ k ∧ k ≤ n ∧ (phases k f).arch = t ∧
    ∀ j, 1 ≤ j → j < k → ∃ c : CtrlState, c.Between ∧ (phases j f).arch = f.arch.setCtrl c

theorem reaches_of_phase {n : Nat} (hn : 1 ≤ n) : f.Reaches f.phase.arch n :=
  ⟨1, le_rfl, hn, rfl, fun _ h1 h2 => absurd h2 (Nat.not_lt.mpr h1)⟩

/-- A phase that changes ctrl_state alone, before the phases from there. -/
theorem Reaches.of_phase {t : State} {n : Nat} {c : CtrlState} (hc : c.Between)
    (hph : f.phase.arch = f.arch.setCtrl c) (h : f.phase.Reaches t n) : f.Reaches t (n + 1) := by
  obtain ⟨k, -, hk, hend, hbetween⟩ := h
  refine ⟨k + 1, Nat.succ_pos k, Nat.succ_le_succ hk, hend, fun j h1 hj => ?_⟩
  match j with
  | 1 => exact ⟨c, hc, hph⟩
  | j + 2 =>
    obtain ⟨c', hc', harch⟩ := hbetween (j + 1) (Nat.succ_pos j) (Nat.lt_of_succ_lt_succ hj)
    rw [hph] at harch
    exact ⟨c', hc', harch⟩

/-- By induction on the phases left: a phase that does not finish the step leaves a core with fewer phases left, whose
step is the same. -/
theorem reaches_step {t : State} (n : Nat) : ∀ f : FsmState, f.arch.ctrl.phasesLeft ≤ n → f.Consistent →
    f.arch.ctrl.running = true → step f.arch = .next t → f.Reaches t n := by
  induction n with
  | zero => exact fun f hn _ hr => absurd (CtrlState.phasesLeft_pos hr) (Nat.not_lt.mpr hn)
  | succ n ih =>
    intro f hn hf hr ht
    obtain hfin | ⟨c, hc, hless, hph, hcons⟩ := finishes_or_advances hr hf
    · cases hfin.symm.trans ht
      exact reaches_of_phase (Nat.succ_pos n)
    · refine Reaches.of_phase hc hph (ih f.phase ?_ hcons ?_ ?_) <;> rw [hph]
      · exact Nat.le_of_lt_succ (lt_of_lt_of_le hless hn)
      · exact hc.running
      · exact (step_setCtrl hr hc.running).trans ht

/-- Settles O44: the phases left, at most four, reach the step's state. -/
theorem fsmPhasesImplementTheStep : Obligations.FsmPhasesImplementTheStep :=
  fun f _ hf hr ht => reaches_step 4 f f.arch.ctrl.phasesLeft_le hf hr ht

end FsmState
end Sys2Proof.Machine
end

/-! ## Data transfer (41): the loads' whole next states, the stores' frames and faults -/

section
namespace Sys2Proof.Machine

/-! ### Where an access outside memory shows: in the operand fetch, and at the memory port -/

/-- The operand fetch of a two-cell opcode in the last cell, p = N - 1, faults with N (40 R72). -/
theorem step_at_last_cell {s : State} {v : Int} (hv : v ∈ [1, 2, 3, 4, 6, 7, 10, 11]) (hat : s.At v)
    (hp : s.pc + 1 = s.cfg.memCells) :
    step s = .next (s.faultedWith .memoryAccessOutOfRange s.cfg.memCells) := by
  obtain ⟨-, hstep⟩ := (operandCellIsAlwaysFetched s v hv hat).2 hp.ge
  have hN : (s.pc : Int) + 1 = s.cfg.memCells := by exact_mod_cast hp
  rwa [hN] at hstep

theorem State.portFault_of_out_of_range {s : State} {addr : Int} (h : addr < 0 ∨ (s.cfg.memCells : Int) ≤ addr) :
    s.portFault addr = some (.memoryAccessOutOfRange addr) :=
  if_neg (by omega)

/-- A write at an address that is no negative number is read back there, in a memory of the one form, and leaves every
cell at another address as before (20 R33). -/
theorem Memory.write_toNat_frame (m : Memory) {addr : Int} (h0 : 0 ≤ addr) (v : Int) :
    (m.wf → (m.write addr.toNat v).read addr.toNat = v) ∧
      ∀ k : Nat, (k : Int) ≠ addr → (m.write addr.toNat v).read k = m.read k := by
  refine ⟨fun hm => Memory.read_write_same hm addr.toNat v, fun k hk => ?_⟩
  have hne : k ≠ addr.toNat := fun he => hk (he ▸ Int.toNat_of_nonneg h0)
  exact Memory.read_write_other m hne v

/-! ### The obligations -/

/-- Settles O12: no load faults once its operand is fetched, so each commits, and a step at its opcode runs it with the
operand cell's value. -/
theorem loadsPutTheOperandInTheirRegister : Obligations.LoadsPutTheOperandInTheirRegister := by
  refine ⟨fun op s => exec_of_no_fault (i := .lda op) rfl, fun op s => exec_of_no_fault (i := .ldx op) rfl,
    fun op s => exec_of_no_fault (i := .ldy op) rfl, fun s hat hp => ?lda, fun s hat hp => ?ldx,
    fun s hat hp => ?ldy, fun s v hv hat hp => ?last⟩
  case lda => exact (step_at_two_cells (f := .lda) rfl hat hp).trans (exec_of_no_fault rfl)
  case ldx => exact (step_at_two_cells (f := .ldx) rfl hat hp).trans (exec_of_no_fault rfl)
  case ldy => exact (step_at_two_cells (f := .ldy) rfl hat hp).trans (exec_of_no_fault rfl)
  case last =>
    have hsub : [1, 4, 10] ⊆ ([1, 2, 3, 4, 6, 7, 10, 11] : List Int) := by decide
    exact step_at_last_cell (hsub hv) hat hp

/-- Settles O13: the memory port's check decides between the commit and the fault, and the committed write has a
write's frame. -/
theorem staStoresAtItsOperand : Obligations.StaStoresAtItsOperand := by
  refine ⟨fun op s h0 h1 => ⟨?commit, Memory.write_toNat_frame s.mem h0 s.a⟩, fun op s hout => ?fault,
    fun s hat hp => step_at_two_cells (f := .sta) rfl hat hp, fun s hat hp => step_at_last_cell (by decide) hat hp⟩
  case commit => exact exec_of_no_fault (i := .sta op) (State.portFault_eq_none.mpr ⟨h0, h1⟩)
  case fault => exact exec_of_fault (i := .sta op) (State.portFault_of_out_of_range hout)

/-- Settles O14: as for STA with X for the address; the opcode has a one-cell row, so the step fetches no operand. -/
theorem staXStoresAtX : Obligations.StaXStoresAtX := by
  refine ⟨fun s h0 h1 => ⟨?commit, Memory.write_toNat_frame s.mem h0 s.a⟩, fun s hout => ?fault,
    fun s hat => step_at_one_cell rfl hat⟩
  case commit => exact exec_of_no_fault (i := .staX) (State.portFault_eq_none.mpr ⟨h0, h1⟩)
  case fault => exact exec_of_fault (i := .staX) (State.portFault_of_out_of_range hout)

end Sys2Proof.Machine
end

/-! ## The ALU and its instructions (42): wrapping, equality of cells, and the registers they are written to -/

section
namespace Sys2Proof

/-! ### wrap_W and the bits of a cell, each the only one of its value (00 R10, R11) -/

/-- wrap_W(v) is the only value that fits W bits and is congruent to v modulo 2^W (00 R11). -/
theorem eq_wrap_of_fits {W : Nat} (hW : 1 ≤ W) {r v : Int} (hr : FitsCell W r)
    (hmod : r % ((2 ^ W : Nat) : Int) = v % ((2 ^ W : Nat) : Int)) : r = wrap W v :=
  calc r = wrap W r := (wrap_of_fits hW hr).symm
    _ = wrap W (r % ((2 ^ W : Nat) : Int)) := (Int.emod_bmod r _).symm
    _ = wrap W (v % ((2 ^ W : Nat) : Int)) := by rw [hmod]
    _ = wrap W v := Int.emod_bmod v _

/-- Cells with the same W bits hold the same integer, since a cell is read back from its bits. -/
theorem bitsOfCell_inj {W : Nat} (hW : 1 ≤ W) {u v : Int} (hu : FitsCell W u) (hv : FitsCell W v) :
    bitsOfCell W u = bitsOfCell W v ↔ u = v := by
  refine ⟨fun hbits => ?_, congrArg (bitsOfCell W)⟩
  rw [← cellOfBits_bitsOfCell hW hu, hbits, cellOfBits_bitsOfCell hW hv]

namespace Machine

theorem aluEq_eq_true {u v : Int} : aluEq u v = true ↔ u = v :=
  decide_eq_true_iff

/-! ### The whole next state of each instruction of the family: none of them faults once it executes -/

theorem exec_adc (op : Int) (s : State) :
    exec (.adc op) s = .next { s with a := wrap s.cfg.wordBits (s.a + op), pc := s.pc + 2, ctrl := .fetch } :=
  exec_of_no_fault (i := .adc op) rfl

theorem exec_inx (s : State) :
    exec .inx s = .next { s with x := wrap s.cfg.wordBits (s.x + 1), pc := s.pc + 1, ctrl := .fetch } :=
  exec_of_no_fault (i := .inx) rfl

theorem exec_dey (s : State) :
    exec .dey s = .next { s with y := wrap s.cfg.wordBits (s.y - 1), pc := s.pc + 1, ctrl := .fetch } :=
  exec_of_no_fault (i := .dey) rfl

theorem exec_cmy (op : Int) (s : State) :
    exec (.cmy op) s = .next { s with flags := decide (op = s.y), pc := s.pc + 2, ctrl := .fetch } :=
  exec_of_no_fault (i := .cmy op) rfl

/-! ### The obligations -/

/-- Settles O15: ADD and SUB are wrap_W of the exact sum and difference, and wrap_W is in range, congruent and the only
such value. -/
theorem aluAddAndSubWrapAround : Obligations.AluAddAndSubWrapAround := by
  refine ⟨fun W u v hW _ _ => ?_, by decide, by decide⟩
  have h1 : 1 ≤ W := by omega
  exact ⟨⟨wrap_fits h1 (u + v), wrap_emod W (u + v)⟩, fun _ => eq_wrap_of_fits h1,
    ⟨wrap_fits h1 (u - v), wrap_emod W (u - v)⟩, fun _ => eq_wrap_of_fits h1⟩

/-- Settles O16: EQ compares the integers, and cells that fit W bits are equal exactly when their bits are. -/
theorem aluEqComparesAllBits : Obligations.AluEqComparesAllBits := by
  intro W u v hW hu hv
  have h1 : 1 ≤ W := by omega
  exact ⟨aluEq_eq_true, aluEq_eq_true.trans (bitsOfCell_inj h1 hu hv).symm⟩

/-- Settles O17: each of the three commits from every state, and a step at its opcode runs it; ADC alone has an operand
to fetch, and so a fetch that can fault. -/
theorem arithmeticWrapsIntoItsRegister : Obligations.ArithmeticWrapsIntoItsRegister := by
  refine ⟨exec_adc, exec_inx, exec_dey, fun s hat hp => ?adc, fun s hat hp => ?last, fun s hat => ?inx,
    fun s hat => ?dey⟩
  case adc => exact (step_at_two_cells (f := .adc) rfl hat hp).trans (exec_adc _ s)
  case last => exact step_at_last_cell (by decide) hat hp
  case inx => exact (step_at_one_cell (i := .inx) rfl hat).trans (exec_inx s)
  case dey => exact (step_at_one_cell (i := .dey) rfl hat).trans (exec_dey s)

/-- Settles O18: CMY commits from every state, and a step at its opcode runs it or faults in the operand fetch. -/
theorem cmyWritesEqualityIntoFlags : Obligations.CmyWritesEqualityIntoFlags := by
  refine ⟨exec_cmy, fun s hat hp => ?cmy, fun s hat hp => ?last⟩
  case cmy => exact (step_at_two_cells (f := .cmy) rfl hat hp).trans (exec_cmy _ s)
  case last => exact step_at_last_cell (by decide) hat hp

end Machine
end Sys2Proof
end

/-! ## Control transfer (43): the whole next states of BRK, BNE, JSR and RTS, their faults, and the round trip -/

section
namespace Sys2Proof.Machine

/-! ### When the rules of the family raise no fault, as conditions on the state -/

theorem State.execFault_bne_of_negative {s : State} {op : Int} (hf : s.flags = false) (h : (s.pc : Int) + op < 0) :
    s.execFault (.bne op) = some (.negativePc ((s.pc : Int) + op)) :=
  if_pos ⟨hf, h⟩

theorem State.execFault_bne_eq_none {s : State} {op : Int} :
    s.execFault (.bne op) = none ↔ s.flags = true ∨ 0 ≤ (s.pc : Int) + op := by
  cases hf : s.flags <;> simp [State.execFault, hf]

theorem State.execFault_jsr_eq_none {s : State} {op : Int} :
    s.execFault (.jsr op) = none ↔ 0 < s.sp ∧ s.sp < s.cfg.memCells := by
  by_cases h0 : s.sp = 0
  · simp [State.execFault, h0]
  · simp [State.execFault, h0, State.portFault_eq_none, Nat.pos_of_ne_zero h0]

theorem State.portFault_pop_eq_none {s : State} :
    s.portFault ((s.sp : Int) + 1) = none ↔ s.sp + 1 < s.cfg.memCells := by
  rw [State.portFault_eq_none]
  omega

theorem State.execFault_rts_of_pop {s : State} (h : s.sp + 1 < s.cfg.memCells) :
    s.execFault .rts =
      if s.mem.read (s.sp + 1) < 0 then some (.negativePc (s.mem.read (s.sp + 1))) else none := by
  rw [State.execFault, State.portFault_pop_eq_none.mpr h, Option.none_or]

/-- The empty stack's fault comes before the popped value is looked at (60 R97). -/
theorem State.execFault_rts_of_empty {s : State} (h : s.sp + 1 = s.cfg.memCells) :
    s.execFault .rts = some (.memoryAccessOutOfRange s.cfg.memCells) := by
  have hN : (s.sp : Int) + 1 = s.cfg.memCells := by exact_mod_cast h
  rw [State.execFault, hN, State.portFault_of_out_of_range (.inr le_rfl), Option.some_or]

/-! ### The committed next states -/

theorem exec_brk (s : State) : exec .brk s = .next { s with halted := true, pc := s.pc + 1, ctrl := .fetch } :=
  exec_of_no_fault (i := .brk) rfl

theorem exec_bne_of_taken {s : State} {op : Int} (hf : s.flags = false) (h : 0 ≤ (s.pc : Int) + op) :
    exec (.bne op) s = .next { s with pc := ((s.pc : Int) + op).toNat, ctrl := .fetch } := by
  rw [exec_of_no_fault (State.execFault_bne_eq_none.mpr (.inr h)), State.execCommit, if_neg (by simp [hf])]
  rfl

theorem exec_bne_of_not_taken {s : State} (hf : s.flags = true) (op : Int) :
    exec (.bne op) s = .next { s with pc := s.pc + 2, ctrl := .fetch } := by
  rw [exec_of_no_fault (State.execFault_bne_eq_none.mpr (.inl hf)), State.execCommit, if_pos hf]
  rfl

/-- JSR from a stack with room, where a cell holds the return address (43 R88). -/
theorem exec_jsr_of_fits {s : State} (h0 : 0 < s.sp) (hN : s.sp < s.cfg.memCells)
    (hfit : FitsCell s.cfg.wordBits ((s.pc : Int) + 2)) (op : Int) :
    exec (.jsr op) s = .next
      { s with mem := s.mem.write s.sp ((s.pc : Int) + 2), sp := s.sp - 1, pc := callTarget op, ctrl := .fetch } := by
  rw [exec_of_no_fault (State.execFault_jsr_eq_none.mpr ⟨h0, hN⟩), State.execCommit_jsr_of_fits hfit]
  rfl

/-- JSR from a stack with room, where no cell holds the return address: a free value is drawn (log entry 10). -/
theorem exec_jsr_of_not_fits {s : State} (h0 : 0 < s.sp) (hN : s.sp < s.cfg.memCells)
    (hfit : ¬FitsCell s.cfg.wordBits ((s.pc : Int) + 2)) (op : Int) :
    exec (.jsr op) s = .next
      { s with mem := s.mem.write s.sp s.returnCell.2, sp := s.sp - 1, pc := callTarget op, ctrl := .fetch,
               freeCount := s.freeCount + 1 } := by
  rw [exec_of_no_fault (State.execFault_jsr_eq_none.mpr ⟨h0, hN⟩), State.execCommit,
    State.returnCell_of_not_fits hfit]
  rfl

/-- RTS from a stack that is not empty, with a return address on it (43 R89). -/
theorem exec_rts_of_pop {s : State} (hN : s.sp + 1 < s.cfg.memCells) (h : 0 ≤ s.mem.read (s.sp + 1)) :
    exec .rts s = .next { s with sp := s.sp + 1, pc := (s.mem.read (s.sp + 1)).toNat, ctrl := .fetch } :=
  exec_of_no_fault (i := .rts) ((State.execFault_rts_of_pop hN).trans (if_neg (by omega)))

/-! ### The obligations -/

/-- Settles O24: the JSR's step committed its push, which the memory reads back at the old sp; and that cell is the one
an RTS pops from the lowered sp. -/
theorem subroutineRoundTrip : Obligations.SubroutineRoundTrip := by
  intro s t hat h1 hN hm hfit ht hnf
  refine ⟨?push, fun u hcfg hu hsp hcell => ?pop⟩
  case push =>
    have ⟨hr, _⟩ := hat
    have hc : t.ctrl = .fetch := by
      obtain hc | ⟨e, rfl⟩ := step_ctrl_of_loopCheck_none hr hat.loopCheck ht
      · exact hc
      · exact absurd rfl hnf
    obtain ⟨-, rfl⟩ := step_committed_two_cells (f := .jsr) rfl hat ht hc
    rw [State.execCommit_jsr_of_fits hfit]
    exact ⟨rfl, Memory.read_write_same hm s.sp _⟩
  case pop =>
    have hsp1 : u.sp + 1 = s.sp := by omega
    have hpop : u.mem.read (u.sp + 1) = (s.pc : Int) + 2 := hsp1 ▸ hcell
    have hnext := exec_rts_of_pop (s := u) (by rwa [hsp1, hcfg]) (by omega)
    rw [hpop, hsp1] at hnext
    exact (step_at_one_cell (i := .rts) rfl hu).trans hnext

/-- Settles O19: BRK commits from every state, and the loop check after it sees halted before it looks at pc. -/
theorem brkHaltsBeforeAnyFurtherFetch : Obligations.BrkHaltsBeforeAnyFurtherFetch :=
  ⟨exec_brk, fun s hat =>
    ⟨(step_at_one_cell (i := .brk) rfl hat).trans (exec_brk s), step_of_stop rfl (State.loopCheck_of_halted rfl)⟩⟩

/-- Settles O20: flags decides whether the branch is taken, and a taken one faults exactly at a negative target. -/
theorem bneBranchesFromItsOwnAddress : Obligations.BneBranchesFromItsOwnAddress := by
  refine ⟨fun op s hf h0 => exec_bne_of_taken hf h0, fun op s hf hneg => ?fault,
    fun op s hf => exec_bne_of_not_taken hf op, fun s hat hp => step_at_two_cells (f := .bne) rfl hat hp,
    fun s hat hp => step_at_last_cell (by decide) hat hp⟩
  case fault => exact exec_of_fault (State.execFault_bne_of_negative hf hneg)

/-- Settles O21: with room on the stack JSR commits its push, which has a write's frame; without, it enters the
overflow. -/
theorem jsrPushesTheReturnAddress : Obligations.JsrPushesTheReturnAddress := by
  refine ⟨fun op s h0 hN hfit => ⟨exec_jsr_of_fits h0 hN hfit op, fun hm => Memory.read_write_same hm s.sp _,
    fun k hk => Memory.read_write_other s.mem hk _⟩, fun op s hsp => ?overflow,
    fun s hat hp => step_at_two_cells (f := .jsr) rfl hat hp, fun s hat hp => step_at_last_cell (by decide) hat hp⟩
  case overflow => exact exec_of_fault (i := .jsr op) (if_pos hsp)

/-- Settles O22: the pushed value is the model's return cell, which always fits W bits. -/
theorem jsrCompletesWhereNoCellHoldsTheReturnAddress : Obligations.JsrCompletesWhereNoCellHoldsTheReturnAddress :=
  fun op s hW h0 hN hfit => ⟨s.returnCell.2, State.returnCell_fits hW, exec_jsr_of_not_fits h0 hN hfit op⟩

/-- Settles O23: the pop is checked before the popped value, and only where both pass does RTS commit. -/
theorem rtsPopsTheReturnAddress : Obligations.RtsPopsTheReturnAddress := by
  refine ⟨fun s hN h0 => exec_rts_of_pop hN h0, fun s hsp => ?empty, fun s hN hneg => ?negative,
    fun s hat => step_at_one_cell rfl hat⟩
  case empty => exact exec_of_fault (State.execFault_rts_of_empty hsp)
  case negative => exact exec_of_fault ((State.execFault_rts_of_pop hN).trans (if_pos hneg))

end Sys2Proof.Machine
end

/-! ## Exceptions (60) and the end of a run: fault entry, the causes of the faults, LOAD's refusals, terminal states -/

section
namespace Sys2Proof.Machine

/-! ### Fault entry (60 R98) -/

/-- The loop check stops a core in no fault, and past it a step that does not commit enters one. -/
theorem exists_enterFault_of_faulted {s t : State} (hr : s.ctrl.running = true) (ht : step s = .next t)
    (hc : t.ctrl = .faulted) : ∃ e, t = s.enterFault e := by
  cases hl : s.loopCheck with
  | some c =>
    cases (step_of_stop hr hl).symm.trans ht
    obtain ⟨rfl, -⟩ | ⟨rfl, -, -⟩ := State.loopCheck_some hl <;> cases hc
  | none =>
    obtain hfetch | he := step_ctrl_of_loopCheck_none hr hl ht
    · cases hc.symm.trans hfetch
    · exact he

/-- Settles O29: a step ends in FAULTED only through fault entry, which is the record of the statement. -/
theorem faultEntryWritesOnlyTheFaultStatus : Obligations.FaultEntryWritesOnlyTheFaultStatus :=
  fun _ _ hr ht hc => exists_enterFault_of_faulted hr ht hc

/-- The fault status of 60 R91 tells the fatal errors apart. -/
theorem FatalError.eq_of_status {e e' : FatalError} (hcode : e.code = e'.code) (hinfo : e.info = e'.info) : e = e' := by
  cases e <;> cases e' <;> cases hcode
  all_goals exact congrArg _ hinfo

/-! ### The causes of the faults (60 R92 to R95), in R97's order -/

/-- What makes a step at the opcode cell v raise the fatal error (60 R92 to R95). Each cause leaves out the states in
which an earlier check of R97's order raises. -/
def State.FaultCause (s : State) (v : Int) : FatalError → Prop
  | .opcodeNotFound info => (v < 0 ∨ 12 < v) ∧ info = v
  | .memoryAccessOutOfRange info =>
    (v ∈ [1, 2, 3, 4, 6, 7, 10, 11] ∧ s.pc + 1 = s.cfg.memCells ∧ info = s.cfg.memCells) ∨
    (v = 3 ∧ s.pc + 1 < s.cfg.memCells ∧ info = s.mem.read (s.pc + 1) ∧ (info < 0 ∨ s.cfg.memCells ≤ info)) ∨
    (v = 8 ∧ info = s.x ∧ (info < 0 ∨ s.cfg.memCells ≤ info)) ∨
    (v = 12 ∧ s.sp = s.cfg.memCells - 1 ∧ info = s.cfg.memCells)
  | .stackOverflow info => v = 11 ∧ s.pc + 1 < s.cfg.memCells ∧ s.sp = 0 ∧ info = 0
  | .negativePc info =>
    (v = 7 ∧ s.pc + 1 < s.cfg.memCells ∧ s.flags = false ∧ info = (s.pc : Int) + s.mem.read (s.pc + 1) ∧ info < 0) ∨
    (v = 12 ∧ s.sp + 1 < s.cfg.memCells ∧ info = s.mem.read (s.sp + 1) ∧ info < 0)

section FaultCauses

variable {s t : State} {v : Int} {e : FatalError}

/-- Every cause makes the step enter its fault. -/
theorem step_of_faultCause (hat : s.At v) (hsp : s.sp < s.cfg.memCells) (h : s.FaultCause v e) :
    step s = .next (s.enterFault e) := by
  cases e with
  | opcodeNotFound info =>
    obtain ⟨hv, rfl⟩ := h
    exact step_at_no_opcode (lookupOpcode_eq_none.mpr hv) hat
  | memoryAccessOutOfRange info =>
    obtain ⟨hv, hp, rfl⟩ | ⟨rfl, hp, rfl, hout⟩ | ⟨rfl, rfl, hout⟩ | ⟨rfl, hempty, rfl⟩ := h
    · exact step_at_last_cell hv hat hp
    · exact (step_at_two_cells (f := .sta) rfl hat hp).trans
        (exec_of_fault (State.portFault_of_out_of_range hout))
    · exact (step_at_one_cell (i := .staX) rfl hat).trans (exec_of_fault (State.portFault_of_out_of_range hout))
    · exact (step_at_one_cell (i := .rts) rfl hat).trans
        (exec_of_fault (State.execFault_rts_of_empty (by omega)))
  | stackOverflow info =>
    obtain ⟨rfl, hp, hfull, rfl⟩ := h
    exact (step_at_two_cells (f := .jsr) rfl hat hp).trans (exec_of_fault (if_pos hfull))
  | negativePc info =>
    obtain ⟨rfl, hp, hf, rfl, hneg⟩ | ⟨rfl, hpop, rfl, hneg⟩ := h
    · exact (step_at_two_cells (f := .bne) rfl hat hp).trans
        (exec_of_fault (State.execFault_bne_of_negative hf hneg))
    · exact (step_at_one_cell (i := .rts) rfl hat).trans
        (exec_of_fault ((State.execFault_rts_of_pop hpop).trans (if_pos hneg)))

theorem State.portFault_some {addr : Int} (h : s.portFault addr = some e) :
    (addr < 0 ∨ (s.cfg.memCells : Int) ≤ addr) ∧ e = .memoryAccessOutOfRange addr := by
  by_cases hin : 0 ≤ addr ∧ addr < s.cfg.memCells
  · cases (State.portFault_eq_none.mpr hin).symm.trans h
  · have hout : addr < 0 ∨ (s.cfg.memCells : Int) ≤ addr := by omega
    cases (State.portFault_of_out_of_range hout).symm.trans h
    exact ⟨hout, rfl⟩

/-- The two-cell rows of the opcode table are those of these eight opcodes (30 R51). -/
theorem mem_of_lookupOpcode_oi {mk : Int → Instr} (hl : lookupOpcode v = some (.oi mk)) :
    v ∈ [1, 2, 3, 4, 6, 7, 10, 11] := by
  have htable : ∀ r ∈ opcodeTable, r.format.length = 2 → r.opcode ∈ [1, 2, 3, 4, 6, 7, 10, 11] := by decide
  obtain ⟨r, hr, rfl, hf⟩ := lookupOpcode_some hl
  exact htable r hr (by rw [hf]; rfl)

/-- The operand of the fetched instruction is the cell after its opcode cell, which is inside memory (40 R72). -/
theorem State.fetchInstr_operand {i : Instr} {op : Int} (hi : s.fetchInstr = .ok i) (hop : i.operand = some op) :
    s.pc + 1 < s.cfg.memCells ∧ op = s.mem.read (s.pc + 1) := by
  obtain hl | ⟨mk, hl, hp, rfl⟩ := State.fetchInstr_ok hi
  · obtain ⟨-, hno⟩ := List.cons.inj (lookupOpcode_buildsEncoding hl)
    simp [hop] at hno
  · obtain ⟨-, hcell⟩ := List.cons.inj (lookupOpcode_buildsEncoding hl (s.mem.read (s.pc + 1)))
    exact ⟨hp, by simpa [hop] using hcell⟩

/-- A fault in the fetch has its cause: no such opcode, or no operand cell (60 R97's first two checks). -/
theorem faultCause_of_fetchInstr (hp : s.pc < s.cfg.memCells) (he : s.fetchInstr = .error e) :
    s.FaultCause s.opcodeCell e := by
  obtain ⟨hl, rfl⟩ | ⟨mk, hl, hlast, rfl⟩ := State.fetchInstr_error he
  · exact ⟨lookupOpcode_eq_none.mp hl, rfl⟩
  · exact .inl ⟨mem_of_lookupOpcode_oi hl, by omega, by omega⟩

/-- A fault of an instruction's rule has its cause. Five of the rules can raise one. -/
theorem faultCause_of_execFault {i : Instr} (hsp : s.sp < s.cfg.memCells) (he : s.execFault i = some e)
    (hop : ∀ op, i.operand = some op → s.pc + 1 < s.cfg.memCells ∧ op = s.mem.read (s.pc + 1)) :
    s.FaultCause i.opcode e := by
  cases i with
  | brk | lda | adc | ldx | inx | cmy | dey | ldy => cases he
  | sta op =>
    obtain ⟨hp, rfl⟩ := hop op rfl
    obtain ⟨hout, rfl⟩ := State.portFault_some he
    exact .inr (.inl ⟨rfl, hp, rfl, hout⟩)
  | staX =>
    obtain ⟨hout, rfl⟩ := State.portFault_some he
    exact .inr (.inr (.inl ⟨rfl, rfl, hout⟩))
  | bne op =>
    obtain ⟨hp, rfl⟩ := hop op rfl
    obtain ⟨⟨hf, hneg⟩, he⟩ := Option.ite_none_right_eq_some.mp he
    cases he
    exact .inl ⟨rfl, hp, hf, rfl, hneg⟩
  | jsr op =>
    obtain ⟨hp, rfl⟩ := hop op rfl
    by_cases hfull : s.sp = 0
    · cases (if_pos hfull).symm.trans he
      exact ⟨rfl, hp, hfull, rfl⟩
    · cases (State.execFault_jsr_eq_none.mpr ⟨Nat.pos_of_ne_zero hfull, hsp⟩).symm.trans he
  | rts =>
    obtain hpop | hempty : s.sp + 1 < s.cfg.memCells ∨ s.sp + 1 = s.cfg.memCells := by omega
    · rw [State.execFault_rts_of_pop hpop] at he
      obtain ⟨hneg, he⟩ := Option.ite_none_right_eq_some.mp he
      cases he
      exact .inr ⟨rfl, hpop, rfl, hneg⟩
    · cases (State.execFault_rts_of_empty hempty).symm.trans he
      exact .inr (.inr (.inr ⟨rfl, by omega, rfl⟩))

/-- Every fault a step enters has its cause. -/
theorem exists_faultCause_of_faulted (hat : s.At v) (hsp : s.sp < s.cfg.memCells) (ht : step s = .next t)
    (hc : t.ctrl = .faulted) : ∃ e, t = s.enterFault e ∧ s.FaultCause v e := by
  have ⟨_, _, hp, hv⟩ := hat
  obtain ⟨e, he, hs⟩ | ⟨i, hi, hs⟩ := step_at hat
  · cases hs.symm.trans ht
    exact ⟨e, rfl, hv ▸ faultCause_of_fetchInstr hp he⟩
  · obtain ⟨-, rfl⟩ | ⟨e, he, rfl⟩ := exec_cases (hs ▸ ht)
    · cases hc
    · have hopcode : i.opcode = v := (State.fetchInstr_opcode hi).trans hv
      exact ⟨e, rfl, hopcode ▸ faultCause_of_execFault hsp he fun op => State.fetchInstr_operand hi⟩

/-- A step shows a fatal error's status in FAULTED exactly under the error's cause. -/
theorem faulted_iff_faultCause (hat : s.At v) (hsp : s.sp < s.cfg.memCells) (ht : step s = .next t) (e : FatalError) :
    (t.ctrl = .faulted ∧ t.faultCode = e.code ∧ t.faultInfo = e.info) ↔ s.FaultCause v e := by
  constructor
  · rintro ⟨hc, hcode, hinfo⟩
    obtain ⟨e', rfl, hcause⟩ := exists_faultCause_of_faulted hat hsp ht hc
    exact FatalError.eq_of_status hcode hinfo ▸ hcause
  · intro hcause
    cases (step_of_faultCause hat hsp hcause).symm.trans ht
    exact ⟨rfl, rfl, rfl⟩

end FaultCauses

/-- Settles O30: each of the four equivalences is about one fatal error, and its right side is that error's cause. -/
theorem faultCausesAreExactlyThese : Obligations.FaultCausesAreExactlyThese := by
  intro s t v info hat hsp ht
  have hiff := faulted_iff_faultCause hat hsp ht
  exact ⟨hiff (.opcodeNotFound info), hiff (.memoryAccessOutOfRange info), hiff (.stackOverflow info),
    hiff (.negativePc info)⟩

/-! ### LOAD (70 R108, 60 R96) -/

section Load

variable {s : State} {prog : List Int}

/-- LOAD of W-bit values outside the running states: the length decides. -/
theorem State.hostLoad_of_fits (hr : s.ctrl.running = false) (hv : ∀ v ∈ prog, FitsCell s.cfg.wordBits v) :
    s.hostLoad prog =
      if s.cfg.memCells < prog.length then .next (s, .programExceedsMemory)
      else .next (s.setMem (s.mem.writeAll 0 prog), .ok) := by
  rw [State.hostLoad, if_neg (by simp [hr]), if_pos (List.all_eq_true.mpr fun v h => decide_eq_true (hv v h))]

/-- LOAD of a value that no cell holds is refused, whatever the program's length (log entry 12). -/
theorem State.hostLoad_of_too_wide (hr : s.ctrl.running = false) (hv : ∃ v ∈ prog, ¬FitsCell s.cfg.wordBits v) :
    s.hostLoad prog = .refused .loadValueTooWide := by
  obtain ⟨v, hmem, hwide⟩ := hv
  rw [State.hostLoad, if_neg (by simp [hr]),
    if_neg fun hall => hwide (of_decide_eq_true (List.all_eq_true.mp hall v hmem))]

end Load

/-- A program written from cell 0 on is read back there, and the cells past it read as before (70 R108). -/
theorem Memory.read_writeAll_zero {m : Memory} (hm : m.wf) (vs : List Int) :
    (∀ k, (h : k < vs.length) → (m.writeAll 0 vs).read k = vs[k]) ∧
      ∀ k, vs.length ≤ k → (m.writeAll 0 vs).read k = m.read k := by
  refine ⟨fun k h => ?_, fun k h => ?_⟩
  · rw [Memory.read_writeAll hm, dif_pos (by omega)]
    rfl
  · rw [Memory.read_writeAll hm, dif_neg (by omega)]

/-- Settles O33: LOAD looks at the values first and at the length second, and what it writes is read back. -/
theorem loadCopiesTheProgramToTheStart : Obligations.LoadCopiesTheProgramToTheStart := by
  refine ⟨fun s prog hr hv hlong => ?tooLong, fun s prog hr hv hlen hm => ?copied,
    fun s prog hr hwide => State.hostLoad_of_too_wide hr hwide⟩
  case tooLong => rw [State.hostLoad_of_fits hr hv, if_pos hlong]
  case copied =>
    refine ⟨s.mem.writeAll 0 prog, ?_, Memory.writeAll_wf hm 0 prog, Memory.read_writeAll_zero hm prog⟩
    rw [State.hostLoad_of_fits hr hv, if_neg hlen.not_gt]
    rfl

/-! ### The terminal states (60 R99, R105) -/

theorem State.hostRun_of_terminal {s : State} (h : s.ctrl.terminal = true) : s.hostRun = s := by
  obtain ⟨hidle, -⟩ | hs := s.hostRun_cases
  · rw [hidle] at h
    cases h
  · exact hs

/-- If LOAD answers, it has changed at most memory (70 R108, R111). -/
theorem State.hostLoad_changes_only_mem {s t : State} {prog : List Int} {r : LoadResult}
    (h : s.hostLoad prog = .next (t, r)) : t = { s with mem := t.mem } := by
  obtain rfl | ⟨-, -, -, rfl⟩ := State.hostLoad_cases h <;> rfl

/-- Settles O37: a terminal state is not running and not IDLE. -/
theorem onlyResetLeavesATerminalState : Obligations.OnlyResetLeavesATerminalState :=
  fun s hc => ⟨step_of_not_running (CtrlState.not_running_of_terminal hc), State.hostRun_of_terminal hc,
    s.hostReset_ctrl, fun _ _ _ h => State.hostLoad_changes_only_mem h⟩

end Sys2Proof.Machine
end

/-! ## Reset, the host's transactions and a program's start (70): reset values, LOAD, RUN, inspection, a loop of one -/

section
namespace Sys2Proof.Machine

/-! ### A run from a state that steps to itself (70 R118, R119) -/

theorem steps_succ_of_step {s t : State} (h : step s = .next t) (n : Nat) : steps (n + 1) s = steps n t := by
  rw [steps, h]

theorem steps_of_step_self {s : State} (h : step s = .next s) (n : Nat) : steps n s = .next s := by
  induction n with
  | zero => rfl
  | succ n ih => rw [steps_succ_of_step h, ih]

/-- A taken BNE 0 commits its own address as the next pc (43 R87). -/
theorem step_bne_zero {s : State} (hat : s.At 7) (hp : s.pc + 1 < s.cfg.memCells) (hop : s.mem.read (s.pc + 1) = 0)
    (hf : s.flags = false) : step s = .next (s.setCtrl .fetch) := by
  have hpc : ((s.pc : Int) + 0).toNat = s.pc := by omega
  rw [step_at_two_cells (f := .bne) rfl hat hp, hop, exec_bne_of_taken hf (by omega), hpc]
  rfl

/-- Settles O25, by induction on the steps after the first: that one leaves the core in FETCH at the same BNE, where a
step changes nothing. -/
theorem branchToItselfNeverEnds : Obligations.BranchToItselfNeverEnds := by
  intro s hat hp hop hf n
  have ⟨_, hh, hpc, hv⟩ := hat
  have hfix : step (s.setCtrl .fetch) = .next (s.setCtrl .fetch) := step_bne_zero ⟨rfl, hh, hpc, hv⟩ hp hop hf
  rw [steps_succ_of_step (step_bne_zero hat hp hop hf)]
  exact steps_of_step_self hfix n

/-! ### RUN and LOAD by the control state (70 R109, R111) -/

theorem CtrlState.ne_idle_of_running {c : CtrlState} (h : c.running = true) : c ≠ .idle := by
  rintro rfl
  cases h

theorem State.hostRun_of_idle {s : State} (h : s.ctrl = .idle) : s.hostRun = s.setCtrl .fetch := by
  rw [State.hostRun, h]

theorem State.hostRun_of_ne_idle {s : State} (h : s.ctrl ≠ .idle) : s.hostRun = s :=
  s.hostRun_cases.resolve_left fun ⟨hidle, _⟩ => h hidle

theorem State.hostLoad_of_running {s : State} (hr : s.ctrl.running = true) (prog : List Int) :
    s.hostLoad prog = .next (s, .unspecified) :=
  if_pos hr

/-! ### Inspection, query by query (70 R110) -/

theorem State.inspect_of_running {s : State} (hr : s.ctrl.running = true) (q : Inspection) :
    s.inspect q = .unspecified :=
  if_pos hr

section NotRunning

variable {s : State} (hr : s.ctrl.running = false)
include hr

theorem State.inspect_register (sel : Fin 4) : s.inspect (.register sel) = .value (s.registerEntry sel) :=
  if_neg (by simp [hr])

theorem State.inspect_pc : s.inspect .pc = .value s.pc :=
  if_neg (by simp [hr])

theorem State.inspect_sp : s.inspect .sp = .value s.sp :=
  if_neg (by simp [hr])

theorem State.inspect_halted : s.inspect .halted = .value (bitValue s.halted) :=
  if_neg (by simp [hr])

theorem State.inspect_ctrlState : s.inspect .ctrlState = .value s.ctrl.code :=
  if_neg (by simp [hr])

theorem State.inspect_faultCode : s.inspect .faultCode = .value s.faultCode.number :=
  if_neg (by simp [hr])

theorem State.inspect_faultInfo : s.inspect .faultInfo = .value s.faultInfo :=
  if_neg (by simp [hr])

theorem State.inspect_cell (addr : Int) : s.inspect (.cell addr) =
    if 0 ≤ addr ∧ addr < s.cfg.memCells then .value (s.mem.read addr.toNat) else .unspecified :=
  if_neg (by simp [hr])

end NotRunning

/-! ### The obligations about reset and the host -/

/-- Settles O38: LOAD of a fitting program lands on the empty memory of a core that reset left in IDLE, from where RUN
starts. -/
theorem bootRunsTheProgramFromCellZero : Obligations.BootRunsTheProgramFromCellZero := by
  intro s prog hv hlen
  have hempty : s.hostReset.mem.wf := ⟨.nil, nofun⟩
  obtain ⟨-, hcopied, -⟩ := loadCopiesTheProgramToTheStart
  obtain ⟨m, hload, -, hprog, hrest⟩ := hcopied s.hostReset prog rfl hv hlen hempty
  exact ⟨m, hload, State.hostRun_of_idle rfl, s.hostReset_pc, s.hostReset_sp, hprog, hrest⟩

/-- Settles O32: the record is the model's reset, and the empty memory reads 0 everywhere. -/
theorem resetGivesTheResetValues : Obligations.ResetGivesTheResetValues :=
  fun _ => ⟨rfl, Memory.read_nil⟩

/-- Settles O34: RUN looks at ctrl_state alone. -/
theorem runStartsInIdleOnly : Obligations.RunStartsInIdleOnly :=
  ⟨fun _ h => State.hostRun_of_idle h, fun _ h => State.hostRun_of_ne_idle h⟩

/-- Settles O35: each query is answered from its own field, and a cell's by the bounds of memory. -/
theorem inspectionReadsTheState : Obligations.InspectionReadsTheState := by
  refine ⟨fun s hr => ?notRunning, fun s q hr => State.inspect_of_running hr q⟩
  case notRunning =>
    refine ⟨State.inspect_register hr 0, State.inspect_register hr 1, State.inspect_register hr 2,
      State.inspect_register hr 3, State.inspect_pc hr, State.inspect_sp hr, State.inspect_halted hr,
      State.inspect_ctrlState hr, State.inspect_faultCode hr, State.inspect_faultInfo hr, fun k hk => ?inside,
      fun addr hout => ?outside⟩
    case inside => exact (State.inspect_cell hr k).trans (if_pos (by omega))
    case outside => exact (State.inspect_cell hr addr).trans (if_neg (by omega))

/-- Settles O36: a running core ignores the host, LOAD's answer outside is decided by the length, and only a cell's
inspection can lack a value there. -/
theorem hostTransactionsByControlState : Obligations.HostTransactionsByControlState := by
  refine ⟨fun s prog q hr => ⟨State.hostLoad_of_running hr prog,
      State.hostRun_of_ne_idle (CtrlState.ne_idle_of_running hr), State.inspect_of_running hr q⟩,
    fun s prog hr hv => ?load, fun s hc => ?run, fun s hc => State.hostRun_of_terminal hc,
    fun s q hr hq => ?inspection⟩
  case load =>
    rw [State.hostLoad_of_fits hr hv]
    by_cases hlong : s.cfg.memCells < prog.length
    · exact ⟨_, _, if_pos hlong, nofun⟩
    · exact ⟨_, _, if_neg hlong, nofun⟩
  case run => rw [State.hostRun_of_idle hc, State.setCtrl_ctrl]
  case inspection =>
    cases q with
    | register sel => exact ⟨_, State.inspect_register hr sel⟩
    | pc => exact ⟨_, State.inspect_pc hr⟩
    | sp => exact ⟨_, State.inspect_sp hr⟩
    | halted => exact ⟨_, State.inspect_halted hr⟩
    | ctrlState => exact ⟨_, State.inspect_ctrlState hr⟩
    | faultCode => exact ⟨_, State.inspect_faultCode hr⟩
    | faultInfo => exact ⟨_, State.inspect_faultInfo hr⟩
    | cell addr => exact absurd rfl (hq addr)

end Sys2Proof.Machine
end
